-- ==== Sys2Proof/Word.lean ====
section
/-! DEFINITION. The machine's one word: a byte (00_scope.md R9; 20_memory.md R34: no value in the machine is wider). -/

namespace Sys2Proof

/-- An unsigned byte, bit 7 the most significant (00_scope.md R9). -/
abbrev Byte := BitVec 8

/-- `v mod 256` of a non-negative integer, as a byte (00_scope.md R9). -/
abbrev Byte.ofNatMod (v : Nat) : Byte := BitVec.ofNat 8 v

end Sys2Proof
end

