-- ==== Sys2Proof/Syntax.lean ====
section
/-! DEFINITION. The instructions and the pure-data descriptors of the decoder's table (30_encoding.md R46, R49;
40_fetch_decode_dispatch.md R62). -/

namespace Sys2Proof

/-- The eleven mnemonics of the opcode table (30_encoding.md R49); `add` and `ret` are the optional ones (R51). -/
inductive Mnemonic where
  | ldi | prn | hlt | mul | cmp | call | jmp | jeq | jne | add | ret
deriving DecidableEq, Repr

/-- One decoded instruction. `a` and `b` are the first and second operand bytes. A register operand is the WHOLE byte
0..255: 8..255 is a legal encoding that fails only when the register is accessed (30_encoding.md R48, R54), so it is
kept as the byte it is. -/
inductive Instr where
  /-- Load-Immediate: register `a`, immediate `b` (41_load_print_halt.md R73). -/
  | ldi (a b : Byte)
  /-- Print-Register: register `a` (41_load_print_halt.md R74). -/
  | prn (a : Byte)
  /-- Halt (41_load_print_halt.md R75). -/
  | hlt
  /-- Multiply: registers `a` and `b`, result in `a` (42_alu.md R81). -/
  | mul (a b : Byte)
  /-- Compare: registers `a` and `b` (42_alu.md R82). -/
  | cmp (a b : Byte)
  /-- Call: register `a` holds the target (43_control_and_stack.md R87). -/
  | call (a : Byte)
  /-- Jump: register `a` holds the target (43_control_and_stack.md R88). -/
  | jmp (a : Byte)
  /-- Jump-If-Equal (43_control_and_stack.md R89). -/
  | jeq (a : Byte)
  /-- Jump-If-Not-Equal (43_control_and_stack.md R90). -/
  | jne (a : Byte)
  /-- Add, present only if `HAS_ADD` (42_alu.md R83). -/
  | add (a b : Byte)
  /-- Return, present only if `HAS_RET` (43_control_and_stack.md R91). -/
  | ret
deriving DecidableEq, Repr

/-- The four formats (30_encoding.md R46). -/
inductive Format where
  | f0 | f1r | f2ri | f2rr
deriving DecidableEq, Repr

/-- The program counter rules (40_fetch_decode_dispatch.md R62, R65). -/
inductive PcRule where
  /-- the sequential successor `pc + length` -/
  | seq
  /-- `pc` is not written -/
  | hold
  /-- the value of register `a` -/
  | abs
  /-- `abs` if `fl` is Equal, else `seq` -/
  | condEqual
  /-- `abs` if `fl` is not Equal, else `seq` -/
  | condNotEqual
  /-- the byte popped from the stack -/
  | pop
deriving DecidableEq, Repr

/-- The ALU's operation select (42_alu.md R80), the fourth value included. -/
inductive AluOp where
  | add | mul | cmp
  /-- select 3: the decoder never issues it -/
  | unsupported
deriving DecidableEq, Repr

/-- The effect unit the dispatch multiplexer routes an instruction to (40_fetch_decode_dispatch.md R59, R62). -/
inductive EffectUnit where
  | registerFile
  | outputPort
  | status
  | alu (op : AluOp)
  | stackPush
  | stackPop
  | programCounter
deriving DecidableEq, Repr

/-- What the decoder returns for a known opcode: pure data (40_fetch_decode_dispatch.md R62). -/
structure Descriptor where
  mnemonic : Mnemonic
  format   : Format
  pcRule   : PcRule
  unit     : EffectUnit
deriving DecidableEq, Repr

/-- Why a byte string is no instruction. -/
inductive DecodeReject where
  /-- the opcode byte is not in the dispatch table (40_fetch_decode_dispatch.md R63) -/
  | unknownInstruction (opcode : Byte)
  /-- the byte string ends before the instruction's operands do (no such string leaves the fetch unit, which always
  reads three bytes, 40_fetch_decode_dispatch.md R60) -/
  | truncated
deriving DecidableEq, Repr

/-- The mnemonic of an instruction. -/
def Instr.mnemonic : Instr → Mnemonic
  | .ldi _ _ => .ldi
  | .prn _ => .prn
  | .hlt => .hlt
  | .mul _ _ => .mul
  | .cmp _ _ => .cmp
  | .call _ => .call
  | .jmp _ => .jmp
  | .jeq _ => .jeq
  | .jne _ => .jne
  | .add _ _ => .add
  | .ret => .ret

end Sys2Proof
end

