-- ==== Sys2Proof/Config.lean ====
section
/-! DEFINITION. The parameters: those the spec fixes (00_scope.md R6), and those it leaves open, each a field of `Config` (00_scope.md
R8). -/

namespace Sys2Proof

/-- `MEM_SIZE`: the number of memory cells (00_scope.md R6). -/
abbrev memSize : Nat := 256

/-- `NREGS`: the number of general registers (00_scope.md R6). -/
abbrev nRegs : Nat := 8

/-- `SP_REG`: the register used as stack pointer (00_scope.md R6; 10_state.md R15). -/
abbrev spReg : Fin 8 := 7

/-- `PC_RESET`: the program counter after reset (00_scope.md R6). -/
abbrev pcReset : Byte := 0

/-- `LOAD_BASE`: the address a program is loaded at (00_scope.md R6). -/
abbrev loadBase : Nat := 0

/-- `OPCODE_MAP`: the opcode byte of each mnemonic (00_scope.md R8; 30_encoding.md R52), as plain data. -/
structure OpcodeMap where
  ldi  : Byte
  prn  : Byte
  hlt  : Byte
  mul  : Byte
  cmp  : Byte
  call : Byte
  jmp  : Byte
  jeq  : Byte
  jne  : Byte
  add  : Byte
  ret  : Byte
deriving DecidableEq, Repr

/-- The opcode byte the map gives a mnemonic. -/
def OpcodeMap.byte (m : OpcodeMap) : Mnemonic → Byte
  | .ldi => m.ldi
  | .prn => m.prn
  | .hlt => m.hlt
  | .mul => m.mul
  | .cmp => m.cmp
  | .call => m.call
  | .jmp => m.jmp
  | .jeq => m.jeq
  | .jne => m.jne
  | .add => m.add
  | .ret => m.ret

/-- The default `OPCODE_MAP` (30_encoding.md R49, D1). PRESUMED (unsafe): the spec itself marks the byte values as general
knowledge (the LS-8 values), see log 3. -/
def OpcodeMap.default : OpcodeMap where
  ldi := 0x82
  prn := 0x47
  hlt := 0x01
  mul := 0xA2
  cmp := 0xA7
  call := 0x50
  jmp := 0x54
  jeq := 0x55
  jne := 0x56
  add := 0xA0
  ret := 0x11

/-- The configuration: fixed before reset, changed by no instruction and no host operation (10_state.md R28). -/
structure Config where
  /-- `SP_INIT`: `x[7]` after reset -/
  spInit  : Byte
  /-- `OPCODE_MAP` -/
  opcodes : OpcodeMap
  /-- `HAS_ADD`: ADD is in the dispatch table -/
  hasAdd  : Bool
  /-- `HAS_RET`: RET is in the dispatch table -/
  hasRet  : Bool
  /-- `OUT_SEPARATOR`: the text the sink puts after each printed value, any text -/
  outSeparator : List Char
deriving DecidableEq, Repr

/-- The defaults of 00_scope.md R8: `SP_INIT` 0xF4, the default map, neither optional instruction. R8 fixes no default for
`OUT_SEPARATOR`: a newline here, which 70_reset_and_hazards.md R122 calls the evident reading (DESIGN CHOICE, log 19). -/
def Config.default : Config where
  spInit := 0xF4
  opcodes := OpcodeMap.default
  hasAdd := false
  hasRet := false
  outSeparator := ['\n']

/-- The default map with both optional instructions present: the machine whose dispatch table is all eleven rows of
spec/opcode_table.json (30_encoding.md R51; log 5). -/
def Config.withOptions : Config := { Config.default with hasAdd := true, hasRet := true }

/-- Whether the dispatch table holds an instruction (30_encoding.md R51): the nine required ones always, `ADD` and `RET`
exactly when their parameter is true. -/
def Config.implements (c : Config) : Mnemonic → Bool
  | .add => c.hasAdd
  | .ret => c.hasRet
  | .ldi | .prn | .hlt | .mul | .cmp | .call | .jmp | .jeq | .jne => true

end Sys2Proof
end

