-- ==== Sys2Proof/Machine/State.lean ====
section
/-! DEFINITION. The machine's state as plain data, everything 10_state.md R13 to R26 gives it, its reset (R29), and the
reasons an operation can be turned down. -/

namespace Sys2Proof.Machine

open Sys2Proof

/-- The flags register's four states (10_state.md R19). -/
inductive Flag where
  | unset | equal | lessThan | greaterThan
deriving DecidableEq, Repr

/-- The four error kinds (60_exceptions.md R95). -/
inductive ErrorKind where
  /-- opcode not in the dispatch table: raised by `step` at decode (R96) -/
  | unknownInstruction
  /-- the ALU was given select 3: raised by no instruction (R98) -/
  | unsupportedOperation
  /-- an address, a register index, a successor or a stack pointer out of range: raised by `step` (R97) -/
  | outOfBounds
  /-- more than 256 bytes given to `load`: never a STATUS (R99) -/
  | loadTooLarge
deriving DecidableEq, Repr

/-- STATUS (10_state.md R22). -/
inductive Status where
  | running
  | halted
  | error (kind : ErrorKind)
deriving DecidableEq, Repr

/-- What the ALU answers: exactly one of a register result, a flags update and an error (42_alu.md R76). -/
inductive AluResult where
  | register (v : Byte)
  | flags (f : Flag)
  | error (kind : ErrorKind)
deriving DecidableEq, Repr

/-- Memory: the cells that do not read as `Memory.unlisted`, as (address, byte) pairs, addresses strictly rising
(20_memory.md R31 lays out the space: 0..255). -/
abbrev Memory := List Host.Cell

/-- What a cell that is not listed reads as: every cell is 0 after reset (10_state.md R29). -/
abbrev Memory.unlisted : Byte := 0

/-- The canonical form: addresses strictly rising, each inside the address space, no cell listed that reads as an unlisted
one would; so equal memories are equal lists. -/
abbrev Memory.wf (m : Memory) : Prop :=
  m.Pairwise (fun c d => c.1 < d.1) ∧ ∀ c ∈ m, c.1 < memSize ∧ c.2 ≠ Memory.unlisted

/-- The state of the Machine (10_state.md R13 to R26) and, last, its configuration. -/
structure State where
  /-- `x[0]` .. `x[7]` (10_state.md R13) -/
  regs   : Vector Byte nRegs
  /-- the program counter (10_state.md R16) -/
  pc     : Byte
  /-- the flags register (10_state.md R19) -/
  fl     : Flag
  /-- STATUS (10_state.md R22) -/
  status : Status
  /-- `M` (10_state.md R25) -/
  mem    : Memory
  /-- OUT, oldest first (10_state.md R24) -/
  out    : List Byte
  /-- the configuration: NOT state of the spec (10_state.md R28); carried here, and kept by every step, because the type of
  `step` is the host's (DESIGN CHOICE, log 2) -/
  cfg    : Config
deriving DecidableEq, Repr

/-- The faults of the model. No instruction and no step faults: an error of the spec is a state with STATUS `Error(kind)`,
entered by `raise` (60_exceptions.md R103; log 1). -/
inductive Fault where
  /-- raised by the host's `load` alone, given more than 256 bytes (70_reset_and_hazards.md R119); safe: it is the spec's own
  answer and the machine is unchanged -/
  | loadTooLarge
deriving DecidableEq, Repr

/-- The refusals of the model. -/
inductive Refusal where
  /-- raised by an arm of `exec` whose instruction has no meaning; safe (no arm of this model is one) -/
  | notModelled (mnemonic : String)
  /-- raised by the host's `load` alone, at any time but between reset and the first step (70_reset_and_hazards.md R118: "a load
  at any other time is outside the spec and a model should refuse it"); safe -/
  | loadAfterReset
deriving DecidableEq, Repr

/-- What every operation of the machine answers. -/
abbrev Result := Host.Outcome State Fault Refusal

/-- The machine right after reset in a given configuration (10_state.md R29; 70_reset_and_hazards.md R113). -/
def State.resetWith (c : Config) : State where
  regs := #v[0, 0, 0, 0, 0, 0, 0, c.spInit]
  pc := pcReset
  fl := .unset
  status := .running
  mem := []
  out := []
  cfg := c

/-- The machine right after reset in the spec's default configuration (00_scope.md R8). -/
def State.reset : State := State.resetWith Config.default

end Sys2Proof.Machine
end

