-- ==== Sys2Proof/Machine/Flags.lean ====
section
/-! DEFINITION. The flag computation, the one flag test, and the flags register's bits in a rendering. -/

namespace Sys2Proof.Machine

open Sys2Proof

/-- The outcome of a comparison of unsigned values (42_alu.md R79); never `Unset`. -/
def compareFlag (va vb : Byte) : Flag :=
  if va.toNat = vb.toNat then .equal
  else if va.toNat < vb.toNat then .lessThan
  else .greaterThan

/-- The one test any instruction makes of the flags: `fl == Equal` (10_state.md R21). `Unset` is not equal (R19). -/
def Flag.isEqual : Flag → Bool
  | .equal => true
  | .unset | .lessThan | .greaterThan => false

/-- The bits `L G E` of a rendering (10_state.md R20, D4); no instruction can read them. -/
def Flag.bits : Flag → BitVec 3
  | .unset => 0b000
  | .equal => 0b001
  | .greaterThan => 0b010
  | .lessThan => 0b100

end Sys2Proof.Machine
end

