-- ==== Sys2Proof/Machine/Ops.lean ====
section
/-! DEFINITION. The named operations over memory, registers, program counter and stack, and taking an error (`raise`).

An operation that can raise answers `Except ErrorKind`: an error abandons the instruction and with it every write made
so far, which is how "raise K: abandon the instruction" reads (00_scope.md R10). -/

namespace Sys2Proof.Machine

open Sys2Proof

/-! ### Memory as a list of cells -/

/-- The byte at an address. -/
def Memory.readByte : Memory → Nat → Byte
  | [], _ => Memory.unlisted
  | c :: m, a => if c.1 = a then c.2 else Memory.readByte m a

/-- A cell put in front, unless it reads as an unlisted one would. -/
def Memory.consCell (a : Nat) (v : Byte) (m : Memory) : Memory := if v = Memory.unlisted then m else (a, v) :: m

/-- Set the byte at an address, keeping the canonical form. -/
def Memory.writeByte : Memory → Nat → Byte → Memory
  | [], a, v => Memory.consCell a v []
  | c :: m, a, v =>
    if a < c.1 then Memory.consCell a v (c :: m)
    else if a = c.1 then Memory.consCell a v m
    else c :: Memory.writeByte m a v

/-- Set the bytes from an address upward (70_reset_and_hazards.md R118). -/
def Memory.writeBytes (m : Memory) (a : Nat) : List Byte → Memory
  | [] => m
  | v :: vs => Memory.writeBytes (m.writeByte a v) (a + 1) vs

/-! ### One field at a time -/

/-- The value of a general register. -/
def State.reg (s : State) (r : Fin 8) : Byte := s.regs[r.val]

/-- Write a general register. -/
def State.setReg (s : State) (r : Fin 8) (v : Byte) : State := { s with regs := s.regs.set r.val v }

/-- Write the program counter. -/
def State.setPc (s : State) (v : Byte) : State := { s with pc := v }

/-- Write the flags register. -/
def State.setFl (s : State) (f : Flag) : State := { s with fl := f }

/-- Write STATUS. -/
def State.setStatus (s : State) (st : Status) : State := { s with status := st }

/-- Replace the memory. -/
def State.setMem (s : State) (m : Memory) : State := { s with mem := m }

/-- `Emit(v)`: append to OUT (00_scope.md R10; 10_state.md R24). -/
def State.emit (s : State) (v : Byte) : State := { s with out := s.out ++ [v] }

/-- The byte in a cell: a plain view, also for the host between steps (70_reset_and_hazards.md R117). -/
def State.byteAt (s : State) (addr : Nat) : Byte := s.mem.readByte addr

/-! ### Taking an error -/

/-- `raise K` (60_exceptions.md R103): `status <- Error(K)` and nothing else; no state is saved and control goes nowhere.
There is no return beside it: `Error(K)` is terminal and only reset leaves it (60_exceptions.md R105). -/
def State.raise (k : ErrorKind) (s : State) : State := s.setStatus (.error k)

/-- Commit an instruction begun in `s`: all the writes of one that completes, or none of one that raises
(40_fetch_decode_dispatch.md R67). -/
def State.settle (s : State) : Except ErrorKind State → Result
  | .ok t => .next t
  | .error k => .next (s.raise k)

/-! ### Bounded accesses -/

/-- `MemRead(addr, 1)` (00_scope.md R10; 20_memory.md R33): an address past 255 raises, it is never reduced. -/
def State.memRead (s : State) (addr : Nat) : Except ErrorKind Byte :=
  if addr < memSize then .ok (s.mem.readByte addr) else .error .outOfBounds

/-- `MemWrite(addr, 1, v)` (00_scope.md R10; 20_memory.md R33). -/
def State.memWrite (s : State) (addr : Nat) (v : Byte) : Except ErrorKind State :=
  if addr < memSize then .ok (s.setMem (s.mem.writeByte addr v)) else .error .outOfBounds

/-- The sequential successor `pc + len` (40_fetch_decode_dispatch.md R65): past 255 it raises, it does not wrap. -/
def State.seqPc (s : State) (len : Nat) : Except ErrorKind Byte :=
  if s.pc.toNat + len ≤ 255 then .ok (Byte.ofNatMod (s.pc.toNat + len)) else .error .outOfBounds

/-- Go on to the sequential successor (40_fetch_decode_dispatch.md R65, `SEQ`). -/
def State.advance (s : State) (len : Nat) : Except ErrorKind State := do
  let next ← s.seqPc len
  return s.setPc next

/-! ### The stack pointer logic -/

/-- Push (43_control_and_stack.md R85): decrement `x[7]`, then write at the decremented address; raises at `x[7] == 0`. -/
def State.push (s : State) (v : Byte) : Except ErrorKind State :=
  if s.reg spReg = 0 then .error .outOfBounds
  else
    let sp := s.reg spReg - 1
    (s.setReg spReg sp).memWrite sp.toNat v

/-- Pop (43_control_and_stack.md R86): read at `x[7]`, then increment it; raises at `x[7] == 255`. -/
def State.pop (s : State) : Except ErrorKind (Byte × State) :=
  if s.reg spReg = 255 then .error .outOfBounds
  else do
    let v ← s.memRead (s.reg spReg).toNat
    return (v, s.setReg spReg (s.reg spReg + 1))

end Sys2Proof.Machine
end

