-- ==== Sys2Proof/Machine/Operands.lean ====
section
/-! DEFINITION. The operand forms (30_encoding.md R48): a register named by a whole operand byte, the immediate byte, and
a register that holds a jump target. -/

namespace Sys2Proof.Machine

open Sys2Proof

/-- The register an operand byte names (10_state.md R14): 0..7 name one; 8..255 name none and raise, never truncated. -/
def regIndex (a : Byte) : Except ErrorKind (Fin 8) :=
  if h : a.toNat < 8 then .ok ⟨a.toNat, h⟩ else .error .outOfBounds

/-- `x[a]` (00_scope.md R10): the check is made on access (10_state.md R14). -/
def State.readReg (s : State) (a : Byte) : Except ErrorKind Byte := do
  let r ← regIndex a
  return s.reg r

/-- `x[a] <- v` (00_scope.md R10). -/
def State.writeReg (s : State) (a v : Byte) : Except ErrorKind State := do
  let r ← regIndex a
  return s.setReg r v

/-- The immediate operand: the whole byte, used as is (30_encoding.md R48). -/
def immediate (b : Byte) : Byte := b

/-- Jump to the address in register `a` (40_fetch_decode_dispatch.md R65, `ABS`): absolute, any value 0..255. -/
def State.jumpTo (s : State) (a : Byte) : Except ErrorKind State := do
  let target ← s.readReg a
  return s.setPc target

end Sys2Proof.Machine
end

