-- ==== Sys2Proof/Machine/Alu.lean ====
section
/-! DEFINITION. The alu block (42_alu.md R76 to R80, R84) and the ALU instructions MUL, CMP and ADD (R81 to R83). -/

namespace Sys2Proof.Machine

open Sys2Proof

/-- The operation of a 2-bit select (42_alu.md R80). -/
def aluSelect (sel : BitVec 2) : AluOp :=
  if sel = 0 then .add else if sel = 1 then .mul else if sel = 2 then .cmp else .unsupported

/-- The ALU's pure function (42_alu.md R76 to R80): exact integers, reduced mod 256 at the end; no carry in, none kept. -/
def aluApply (op : AluOp) (va vb : Byte) : AluResult :=
  match op with
  | .add => .register (Byte.ofNatMod (va.toNat + vb.toNat))
  | .mul => .register (Byte.ofNatMod (va.toNat * vb.toNat))
  | .cmp => .flags (compareFlag va vb)
  | .unsupported => .error .unsupportedOperation

/-- Write an ALU answer back (42_alu.md R76): a result into the first operand's register, a flags update into `fl`; an error
is raised. -/
def State.writeBack (s : State) (a : Byte) : AluResult → Except ErrorKind State
  | .register v => s.writeReg a v
  | .flags f => .ok (s.setFl f)
  | .error k => .error k

/-- The instruction shape MUL, CMP and ADD share (42_alu.md R81 to R83): read both registers, apply, write back, `pc + 3`. -/
def State.aluInstr (s : State) (op : AluOp) (a b : Byte) : Except ErrorKind State := do
  let va ← s.readReg a
  let vb ← s.readReg b
  let t ← s.writeBack a (aluApply op va vb)
  t.advance 3

/-- MUL (42_alu.md R81). -/
def execMul (a b : Byte) (s : State) : Result := s.settle (s.aluInstr .mul a b)

/-- CMP (42_alu.md R82). -/
def execCmp (a b : Byte) (s : State) : Result := s.settle (s.aluInstr .cmp a b)

/-- ADD (42_alu.md R83). Its presence is the decoder's business (30_encoding.md R51). -/
def execAdd (a b : Byte) (s : State) : Result := s.settle (s.aluInstr .add a b)

end Sys2Proof.Machine
end

