-- ==== Sys2Proof/Machine/Control.lean ====
section
/-! DEFINITION. Control transfer: CALL, JMP, JEQ, JNE and RET (43_control_and_stack.md R87 to R91). -/

namespace Sys2Proof.Machine

open Sys2Proof

/-- CALL (43_control_and_stack.md R87): push the return address `pc + 2`, THEN read the target, so that `CALL R7` jumps to
the decremented stack pointer (the spec's decision D9, log 13). -/
def execCall (a : Byte) (s : State) : Result :=
  s.settle do
    let ret ← s.seqPc 2
    let t ← s.push ret
    t.jumpTo a

/-- JMP (43_control_and_stack.md R88). -/
def execJmp (a : Byte) (s : State) : Result := s.settle (s.jumpTo a)

/-- A conditional jump: the register is read, and checked, only if it is taken (43_control_and_stack.md R89, R90; D21). -/
def State.branch (s : State) (taken : Bool) (a : Byte) : Except ErrorKind State :=
  if taken then s.jumpTo a else s.advance 2

/-- JEQ (43_control_and_stack.md R89). -/
def execJeq (a : Byte) (s : State) : Result := s.settle (s.branch s.fl.isEqual a)

/-- JNE (43_control_and_stack.md R90). -/
def execJne (a : Byte) (s : State) : Result := s.settle (s.branch (!s.fl.isEqual) a)

/-- RET (43_control_and_stack.md R91). Its presence is the decoder's business (30_encoding.md R51). -/
def execRet (s : State) : Result :=
  s.settle do
    let (target, t) ← s.pop
    return t.setPc target

end Sys2Proof.Machine
end

