-- ==== Sys2Proof/Machine/LoadPrintHalt.lean ====
section
/-! DEFINITION. Load-Immediate, Print-Register and Halt (41_load_print_halt.md R73 to R75). -/

namespace Sys2Proof.Machine

open Sys2Proof

/-- LDI (41_load_print_halt.md R73). -/
def execLdi (a b : Byte) (s : State) : Result :=
  s.settle do
    let t ← s.writeReg a (immediate b)
    t.advance 3

/-- PRN (41_load_print_halt.md R74). -/
def execPrn (a : Byte) (s : State) : Result :=
  s.settle do
    let v ← s.readReg a
    (s.emit v).advance 2

/-- HLT (41_load_print_halt.md R75): `pc` keeps the address of the HLT (the spec's decision D8, log 12). -/
def execHlt (s : State) : Result := s.settle (.ok (s.setStatus .halted))

end Sys2Proof.Machine
end

