-- ==== Sys2Proof/WellFormed.lean ====
section
/-! DEFINITION. What a configuration and an instruction must satisfy (30_encoding.md R51, R52). An instruction's operand
bytes are unconstrained: "Operand bytes have no reserved values" (30_encoding.md R54). -/

namespace Sys2Proof

/-- Every mnemonic, in the order of the opcode table. -/
def Mnemonic.all : List Mnemonic :=
  [.ldi, .prn, .hlt, .mul, .cmp, .call, .jmp, .jeq, .jne, .add, .ret]

/-- The mnemonics in a configuration's dispatch table (30_encoding.md R51). -/
def Config.implemented (c : Config) : List Mnemonic := Mnemonic.all.filter c.implements

/-- `OPCODE_MAP` is injective over the implemented mnemonics (30_encoding.md R52): "two instructions never share a byte". -/
abbrev Config.wf (c : Config) : Prop := (c.implemented.map c.opcodes.byte).Nodup

/-- An instruction exists in a machine exactly when its mnemonic is in the dispatch table (30_encoding.md R51). -/
abbrev Instr.wf (c : Config) (i : Instr) : Prop := c.implements i.mnemonic = true

end Sys2Proof
end

