-- ==== Sys2Proof/Decode.lean ====
section
/-! DEFINITION. The instruction decoder (30_encoding.md R45 to R54; 40_fetch_decode_dispatch.md R62, R63) and, after it,
the encoder written from the same tables. -/

namespace Sys2Proof

/-- The format of each instruction (30_encoding.md R46). -/
def Mnemonic.format : Mnemonic → Format
  | .hlt | .ret => .f0
  | .prn | .call | .jmp | .jeq | .jne => .f1r
  | .ldi => .f2ri
  | .mul | .cmp | .add => .f2rr

/-- The number of operand bytes of a format (30_encoding.md R46). -/
def Format.operandCount : Format → Nat
  | .f0 => 0
  | .f1r => 1
  | .f2ri | .f2rr => 2

/-- The length in bytes: "opcode + operand count" (30_encoding.md R46). -/
def Format.length (f : Format) : Nat := f.operandCount + 1

/-- The descriptor table (40_fetch_decode_dispatch.md R62). -/
def Mnemonic.descriptor (m : Mnemonic) : Descriptor :=
  let row (p : PcRule) (u : EffectUnit) : Descriptor := ⟨m, m.format, p, u⟩
  match m with
  | .ldi  => row .seq .registerFile
  | .prn  => row .seq .outputPort
  | .hlt  => row .hold .status
  | .mul  => row .seq (.alu .mul)
  | .cmp  => row .seq (.alu .cmp)
  | .call => row .abs .stackPush
  | .jmp  => row .abs .programCounter
  | .jeq  => row .condEqual .programCounter
  | .jne  => row .condNotEqual .programCounter
  | .add  => row .seq (.alu .add)
  | .ret  => row .pop .stackPop

/-- The length of an instruction in bytes (30_encoding.md R46). -/
def Instr.length (i : Instr) : Nat := i.mnemonic.format.length

/-- The dispatch table: opcode bytes against descriptors, for the implemented instructions (30_encoding.md R51;
40_fetch_decode_dispatch.md R62). -/
def Config.table (c : Config) : List (Byte × Descriptor) :=
  c.implemented.map fun m => (c.opcodes.byte m, m.descriptor)

/-- The decoder's lookup. It "reads nothing but `ir` (and the configuration)" (40_fetch_decode_dispatch.md R62), and the
whole opcode byte selects (30_encoding.md R49). -/
def Config.lookup (c : Config) (ir : Byte) : Option Descriptor :=
  (c.table.find? fun row => row.1 == ir).map (·.2)

/-- The instruction of a mnemonic with the operand bytes `a` and `b`; the bytes it does not use are dropped
(40_fetch_decode_dispatch.md R71). -/
def Mnemonic.instr (m : Mnemonic) (a b : Byte) : Instr :=
  match m with
  | .ldi => .ldi a b
  | .prn => .prn a
  | .hlt => .hlt
  | .mul => .mul a b
  | .cmp => .cmp a b
  | .call => .call a
  | .jmp => .jmp a
  | .jeq => .jeq a
  | .jne => .jne a
  | .add => .add a b
  | .ret => .ret

/-- Take an instruction's operand bytes off the bytes after its opcode (30_encoding.md R45, R46). -/
def Descriptor.takeOperands (d : Descriptor) (rest : List Byte) : Except DecodeReject (Instr × List Byte) :=
  match d.format.operandCount, rest with
  | 0, rest => .ok (d.mnemonic.instr 0 0, rest)
  | 1, a :: rest => .ok (d.mnemonic.instr a 0, rest)
  | 2, a :: b :: rest => .ok (d.mnemonic.instr a b, rest)
  | _, _ => .error .truncated

/-- Decode one instruction from a byte string, lowest address first, giving it and the bytes after it; total, and a string
that is no instruction is rejected by name. -/
def decode (c : Config) : List Byte → Except DecodeReject (Instr × List Byte)
  | [] => .error .truncated
  | ir :: rest =>
    match c.lookup ir with
    | none => .error (.unknownInstruction ir)
    | some d => d.takeOperands rest

/-- Byte `k` of a word numbered as spec/opcode_table.json numbers it: bit 0 is the least significant bit of the FIRST byte. -/
def tableByte (nbits w k : Nat) : Byte := Byte.ofNatMod ((w % 2 ^ nbits) / 2 ^ (8 * k))

/-- The three bytes of such a word at ascending addresses (30_encoding.md R45); every bit above `nbits` is 0. -/
def tableBytes (nbits w : Nat) : List Byte := [tableByte nbits w 0, tableByte nbits w 1, tableByte nbits w 2]

/-- The instruction the decoder reads from a word of spec/opcode_table.json. The table's words are those of the default map
and its eleven rows include the two optional ones, so it is read with `Config.withOptions` (DESIGN CHOICE, log 5). -/
def decodeTableWord (nbits w : Nat) : Option Instr :=
  match decode Config.withOptions (tableBytes nbits w) with
  | .ok (i, _) => some i
  | .error _ => none

/-- The operand bytes of an instruction, in address order (30_encoding.md R46). -/
def Instr.operandBytes : Instr → List Byte
  | .hlt | .ret => []
  | .prn a | .call a | .jmp a | .jeq a | .jne a => [a]
  | .ldi a b | .mul a b | .cmp a b | .add a b => [a, b]

/-- The bytes of an instruction at ascending addresses: opcode, then operands (30_encoding.md R45, R46, R49). -/
def encode (c : Config) (i : Instr) : List Byte := c.opcodes.byte i.mnemonic :: i.operandBytes

/-- The bytes of a program: its instructions' bytes one after another (30_encoding.md R58). -/
def encodeAll (c : Config) (is : List Instr) : List Byte := is.flatMap (encode c)

end Sys2Proof
end

