-- ==== Sys2Proof/Machine/Fetch.lean ====
section
/-! DEFINITION. The fetch unit and its meeting with the decoder (40_fetch_decode_dispatch.md R60 to R63), and placing an
instruction where the next fetch reads it. -/

namespace Sys2Proof.Machine

open Sys2Proof

/-- Fetch (40_fetch_decode_dispatch.md R60): all three bytes are read at every step, so a `pc` of 254 or 255 raises
`OutOfBounds` whatever is there (R61). -/
def State.fetch (s : State) : Except ErrorKind (List Byte) := do
  let ir ← s.memRead s.pc.toNat
  let a ← s.memRead (s.pc.toNat + 1)
  let b ← s.memRead (s.pc.toNat + 2)
  return [ir, a, b]

/-- The error kind of a rejected byte string: an unknown opcode (40_fetch_decode_dispatch.md R63); an operand byte that is
not there would be one beyond memory (R61), which the fetch has already raised. -/
def rejectKind : DecodeReject → ErrorKind
  | .unknownInstruction _ => .unknownInstruction
  | .truncated => .outOfBounds

/-- Fetch, then decode (40_fetch_decode_dispatch.md R66): the fetch bound comes before an unknown opcode (60_exceptions.md
R102). -/
def State.fetchDecode (s : State) : Except ErrorKind Instr := do
  let bytes ← s.fetch
  match decode s.cfg bytes with
  | .ok (i, _) => .ok i
  | .error r => .error (rejectKind r)

/-- Whether a step happens at all (10_state.md R22, R23). -/
def State.isRunning (s : State) : Bool :=
  match s.status with
  | .running => true
  | .halted | .error _ => false

/-- Put three bytes where the next step fetches, and make it fetch them (DESIGN CHOICE, log 7): the machine runs, `pc` is
moved to 0 only where nothing can be fetched at it (40_fetch_decode_dispatch.md R61), and the configuration is the one the table's
words are written for: the default map, with the optional instruction the word is, if it is one. -/
def State.placeTableWord (s : State) (bytes : List Byte) : State :=
  let pc : Byte := if s.pc.toNat ≤ 253 then s.pc else pcReset
  let opcode := bytes.headD 0
  { s with
    pc := pc
    status := .running
    mem := s.mem.writeBytes pc.toNat bytes
    cfg := { s.cfg with
      opcodes := OpcodeMap.default
      hasAdd := s.cfg.hasAdd || opcode == OpcodeMap.default.add
      hasRet := s.cfg.hasRet || opcode == OpcodeMap.default.ret } }

end Sys2Proof.Machine
end

