-- ==== Sys2Proof/Machine/Step.lean ====
section
/-! DEFINITION. One step (40_fetch_decode_dispatch.md R66), and the state whose next step runs a given word. -/

namespace Sys2Proof.Machine

open Sys2Proof

/-- The step function (40_fetch_decode_dispatch.md R66): nothing at all unless running (R70); fetch, decode, execute. -/
def step (s : State) : Host.Outcome State Fault Refusal :=
  if s.isRunning then
    match s.fetchDecode with
    | .ok i => exec i s
    | .error k => s.settle (.error k)
  else s.settle (.ok s)

/-- `s` with the word `w` of `nbits` bits placed where `step` fetches its next instruction (log 7). -/
def State.withFetchWord (s : State) (nbits w : Nat) : State := s.placeTableWord (tableBytes nbits w)

end Sys2Proof.Machine
end

