-- ==== Sys2Proof/Machine/HostInterface.lean ====
section
/-! DEFINITION. What the outside world can do to the machine and what it gets back (70_reset_and_hazards.md R113 to R124):
reset, load, step, run, the sink's text and the ports of a rendering. -/

namespace Sys2Proof.Machine

open Sys2Proof

/-- Reset at any time (70_reset_and_hazards.md R113, D24): the construction again, the configuration kept (10_state.md R28). -/
def State.resetAgain (s : State) : State := State.resetWith s.cfg

/-- What a load does (70_reset_and_hazards.md R118, R119): more than 256 bytes answer `LoadTooLarge` before any write. When a
load is allowed is `Session.load`'s business. -/
def State.load (s : State) (bytes : List Byte) : Result :=
  if memSize < bytes.length then .fault .loadTooLarge
  else .next (s.setMem (s.mem.writeBytes loadBase bytes))

/-- `run` (40_fetch_decode_dispatch.md R68; 70_reset_and_hazards.md R120) under fuel (R72): steps until STATUS is not
`Running` or the fuel is used up. -/
def State.run : Nat → State → Result
  | 0, s => .next s
  | n + 1, s =>
    if s.isRunning then
      match step s with
      | .next t => State.run n t
      | .fault f => .fault f
      | .refused r => .refused r
    else .next s

/-- What the host can ask of the machine (70_reset_and_hazards.md R117); `run` carries the model's fuel. -/
inductive Request where
  | reset
  | load (bytes : List Byte)
  | step
  | run (fuel : Nat)
deriving DecidableEq, Repr

/-- What the host gets back (70_reset_and_hazards.md R117 to R121). -/
inductive Reply where
  /-- reset answers nothing -/
  | nothing
  /-- a load that was done -/
  | loaded
  /-- the new STATUS, after `step` or `run` -/
  | status (st : Status)
  /-- `load` of more than 256 bytes: `LoadTooLarge` -/
  | failed (f : Fault)
  /-- a load outside the described lifecycle -/
  | turnedDown (r : Refusal)
deriving DecidableEq, Repr

/-- A machine as the host uses it: the machine, and where it stands in the lifecycle of 70_reset_and_hazards.md R115 and R117.
That is no state of the machine (10_state.md: "Nothing else persists"), so it stands beside State (DESIGN CHOICE, log 9). -/
structure Session where
  machine : State
  /-- no load done and no step asked for since reset: the next load is the one the spec describes -/
  unused  : Bool
deriving DecidableEq, Repr

/-- A machine just constructed, or reset (70_reset_and_hazards.md R113). -/
def Session.start (c : Config) : Session := ⟨State.resetWith c, true⟩

/-- The host's load (70_reset_and_hazards.md R118): on the reset state, "no step taken since reset", and once (U15 of
93_implementation_defined.md); refused at any other time. -/
def Session.load (h : Session) (bytes : List Byte) : Result :=
  if h.unused = true ∧ h.machine = h.machine.resetAgain then h.machine.load bytes else .refused .loadAfterReset

/-- The session and the reply after an outcome: a fault or a refusal leaves the session as it was. -/
def Session.answer (h : Session) (unused : Bool) (ok : State → Reply) : Result → Session × Reply
  | .next t => (⟨t, unused⟩, ok t)
  | .fault f => (h, .failed f)
  | .refused r => (h, .turnedDown r)

/-- One operation of the host (70_reset_and_hazards.md R117). A `run` with no fuel takes no step. -/
def Session.serve (h : Session) : Request → Session × Reply
  | .reset => h.answer true (fun _ => .nothing) (.next h.machine.resetAgain)
  | .load bytes => h.answer false (fun _ => .loaded) (h.load bytes)
  | .step => h.answer false (fun t => .status t.status) (step h.machine)
  | .run fuel => h.answer (h.unused && fuel == 0) (fun t => .status t.status) (State.run fuel h.machine)

/-- Operations of the host one after another. -/
def Session.serveAll (h : Session) : List Request → Session
  | [] => h
  | req :: reqs => Session.serveAll (h.serve req).1 reqs

/-! ### The sink -/

/-- The character of a decimal digit. -/
def digitChar (d : Nat) : Char := Char.ofNat ('0'.toNat + d % 10)

/-- The decimal numeral of a value 0..255, no sign, no leading zeros (41_load_print_halt.md R74; 70_reset_and_hazards.md
R122). -/
def decimalText (v : Byte) : List Char :=
  let n := v.toNat
  if n < 10 then [digitChar n]
  else if n < 100 then [digitChar (n / 10), digitChar n]
  else [digitChar (n / 100), digitChar (n / 10), digitChar n]

/-- The text a sink with a given separator shows for OUT: each value's numeral and then the separator (70_reset_and_hazards.md
R122). -/
def sinkText (separator : List Char) (out : List Byte) : List Char := out.flatMap fun v => decimalText v ++ separator

/-- The text the machine's own sink shows: its separator is the configuration's `OUT_SEPARATOR` (00_scope.md R8). -/
def State.shownText (s : State) : List Char := sinkText s.cfg.outSeparator s.out

/-! ### The ports of a rendering -/

/-- `status[1:0]` (10_state.md R22, D11). -/
def Status.code : Status → BitVec 2
  | .running => 0
  | .halted => 1
  | .error _ => 2

/-- The number of an error kind (60_exceptions.md R100, D11). -/
def ErrorKind.code : ErrorKind → BitVec 3
  | .unknownInstruction => 1
  | .unsupportedOperation => 2
  | .outOfBounds => 3
  | .loadTooLarge => 4

/-- `err_kind[2:0]`: 0 is no error (60_exceptions.md R100). -/
def Status.errorCode : Status → BitVec 3
  | .running | .halted => 0
  | .error k => k.code

/-- The output ports (70_reset_and_hazards.md R124). The memory's view is `State.byteAt`. -/
structure Ports where
  status  : BitVec 2
  errKind : BitVec 3
  /-- `out_data` of each pulse of `out_valid`, oldest first: one per PRN of the request served -/
  emitted : List Byte
  pc      : Byte
  fl      : BitVec 3
  regs    : Vector Byte nRegs
deriving DecidableEq, Repr

/-- The ports after a request that took the machine from `s` to `t` with the reply `r`. A load that is too large shows its
kind on `err_kind` (60_exceptions.md R100). -/
def portsAfter (s t : State) (r : Reply) : Ports where
  status := t.status.code
  errKind := match r with
    | .failed .loadTooLarge => ErrorKind.loadTooLarge.code
    | .nothing | .loaded | .status _ | .turnedDown _ => t.status.errorCode
  emitted := t.out.drop s.out.length
  pc := t.pc
  fl := t.fl.bits
  regs := t.regs

end Sys2Proof.Machine
end

