-- ==== Sys2Proof/Safety.lean ====
section
/-! DEFINITION. The terms claims use: what is kept from one state to another, the entry of an error, the end of a run, the
states a run can reach, and the invariant of the model. -/

namespace Sys2Proof.Machine

open Sys2Proof

/-- Every general register but those listed holds what it held. -/
def RegsKeptExcept (written : List (Fin 8)) (s t : State) : Prop := ∀ r, r ∉ written → t.reg r = s.reg r

/-- Every byte of memory but those listed reads as it did. -/
def BytesKeptExcept (written : List Nat) (s t : State) : Prop := ∀ addr, addr ∉ written → t.byteAt addr = s.byteAt addr

/-- The special state an instruction leaves alone unless a rule says otherwise: `fl`, STATUS, OUT and the configuration. -/
structure SpecialsKept (s t : State) : Prop where
  fl     : t.fl = s.fl
  status : t.status = s.status
  out    : t.out = s.out
  cfg    : t.cfg = s.cfg

/-- `t` is `s` after `raise k` (60_exceptions.md R103): STATUS is `Error(k)` and everything else is exactly as it was. -/
structure ErrorEntered (k : ErrorKind) (s t : State) : Prop where
  status : t.status = .error k
  regs   : RegsKeptExcept [] s t
  pc     : t.pc = s.pc
  fl     : t.fl = s.fl
  bytes  : BytesKeptExcept [] s t
  out    : t.out = s.out
  cfg    : t.cfg = s.cfg

/-- An outcome is the entry of an error from `s`. -/
def Raises (k : ErrorKind) (s : State) (o : Result) : Prop := ∃ t, o = .next t ∧ ErrorEntered k s t

/-- `bytes`, for a machine's opcode map, are the bytes of `i` at ascending addresses in every machine that has `i`, and its
decoder reads them as `i` and leaves whatever follows. -/
def Encodes (i : Instr) (bytes : OpcodeMap → List Byte) : Prop :=
  ∀ (c : Config) (rest : List Byte), c.wf → i.wf c →
    encode c i = bytes c.opcodes ∧ decode c (bytes c.opcodes ++ rest) = .ok (i, rest)

/-- The general register an instruction may write (40_fetch_decode_dispatch.md R62, the column "state written"). -/
def MayWriteReg (i : Instr) (q : Fin 8) : Prop :=
  match i with
  | .ldi a _ | .mul a _ | .add a _ => a.toNat = q.val
  | .call _ | .ret => q = spReg
  | .prn _ | .hlt | .cmp _ _ | .jmp _ | .jeq _ | .jne _ => False

/-- Where an instruction that completes leaves `pc`, by its descriptor's rule (40_fetch_decode_dispatch.md R65). The target
register is read in `t`: for CALL that is after the push, and no other jump writes a register. -/
def PcByRule (i : Instr) (s t : State) : Prop :=
  let next := t.pc.toNat = s.pc.toNat + i.length
  let jumped := ∃ a ∈ i.operandBytes, ∃ r : Fin 8, a.toNat = r.val ∧ t.pc = t.reg r
  match i.mnemonic.descriptor.pcRule with
  | .seq => next
  | .hold => t.pc = s.pc
  | .abs => jumped
  | .condEqual => if s.fl = .equal then jumped else next
  | .condNotEqual => if s.fl = .equal then next else jumped
  | .pop => t.pc = s.byteAt (s.reg spReg).toNat

/-- The successful end of a run (70_reset_and_hazards.md R128). -/
def State.succeeded (s : State) : Prop := s.status = .halted

/-- The failed end of a run (70_reset_and_hazards.md R128; 60_exceptions.md R105: a claim treats it as a fault). -/
def State.failed (s : State) : Prop := ∃ k, s.status = .error k

/-- The error kinds a STATUS can hold (60_exceptions.md R98, R99). -/
def Status.possible : Status → Prop
  | .running | .halted | .error .unknownInstruction | .error .outOfBounds => True
  | .error .unsupportedOperation | .error .loadTooLarge => False

/-- The invariant of the machine in configuration `c`: memory in its canonical form inside the address space, STATUS one a
run can have, the configuration the one it was built with, and its opcode map injective. -/
structure State.Inv (c : Config) (s : State) : Prop where
  mem    : s.mem.wf
  status : s.status.possible
  cfg    : s.cfg = c
  table  : c.wf

/-- The invariant of a machine as the host uses it: the machine's, and a machine counted unused is in its reset state
(70_reset_and_hazards.md R118). -/
structure Session.Inv (c : Config) (h : Session) : Prop where
  machine : h.machine.Inv c
  unused  : h.unused = true → h.machine = State.resetWith c

/-- The states of a run in configuration `c` (70_reset_and_hazards.md R115): reset, load, then steps. -/
inductive Reachable (c : Config) : State → Prop where
  | reset : Reachable c (State.resetWith c)
  | load (bytes : List Byte) (t : State) : (State.resetWith c).load bytes = .next t → Reachable c t
  | step (s t : State) : Reachable c s → Machine.step s = .next t → Reachable c t

/-- `n` steps one after another, whatever STATUS is. -/
def stepTimes : Nat → State → Result
  | 0, s => .next s
  | n + 1, s =>
    match Machine.step s with
    | .next t => stepTimes n t
    | .fault f => .fault f
    | .refused r => .refused r

/-- The next state of an outcome, where there is one. -/
def Result.next? : Result → Option State
  | .next t => some t
  | .fault _ => none
  | .refused _ => none

end Sys2Proof.Machine
end

