-- ==== Sys2Proof/Certificates/Slice0/Obligations.lean ====
section
/-! DEFINITION. The statements for the provers. Each docstring names the rule of spec/ it formalises; where a clause rests on
a decision the spec marks as its own (D<n>) or on a choice of the model, it says so and names the log entry. -/

open Sys2Proof Sys2Proof.Machine

/-! ### Encoding and decoding -/

/-- The spec's written-out words decode to the instructions they stand for, under the default bytes. Derived: 30_encoding.md
section 6; the byte values are marked as general knowledge by the spec (log 3) and the two optional instructions are switched
on (log 5). -/
def Obligations.SpecWordsDecode : Prop :=
  decode Config.withOptions [0x82, 0x00, 0x08] = .ok (.ldi 0 8, []) ∧
  decode Config.withOptions [0xA2, 0x00, 0x01] = .ok (.mul 0 1, []) ∧
  decode Config.withOptions [0xA7, 0x00, 0x02] = .ok (.cmp 0 2, []) ∧
  decode Config.withOptions [0x47, 0x00] = .ok (.prn 0, []) ∧
  decode Config.withOptions [0x50, 0x01] = .ok (.call 1, []) ∧
  decode Config.withOptions [0x54, 0x03] = .ok (.jmp 3, []) ∧
  decode Config.withOptions [0x55, 0x03] = .ok (.jeq 3, []) ∧
  decode Config.withOptions [0x56, 0x03] = .ok (.jne 3, []) ∧
  decode Config.withOptions [0x01] = .ok (.hlt, []) ∧
  decode Config.withOptions [0xA0, 0x00, 0x01] = .ok (.add 0 1, []) ∧
  decode Config.withOptions [0x11] = .ok (.ret, [])

/-- Decoding an encoded instruction gives it back, with every operand byte at every value, whatever bytes follow, in every
machine with an injective opcode map that has the instruction. -/
def Obligations.EncodedInstructionDecodesBack : Prop :=
  ∀ (c : Config) (i : Instr) (rest : List Byte), c.wf → i.wf c → decode c (encode c i ++ rest) = .ok (i, rest)

/-- Every byte string the decoder accepts is the encoding of the instruction it gives, followed by the rest it gives, and the
machine has that instruction: no byte of an instruction is dropped and nothing outside the dispatch table decodes. -/
def Obligations.DecodedBytesAreTheEncoding : Prop :=
  ∀ (c : Config) (bs : List Byte) (i : Instr) (rest : List Byte),
    decode c bs = .ok (i, rest) → encode c i ++ rest = bs ∧ i.wf c

/-- A program laid out by its encodings is read back instruction by instruction: decoding an encoded list of instructions one
after another never loses its place. -/
def Obligations.EncodedProgramDecodesInOrder : Prop :=
  ∀ (c : Config) (before : List Instr) (i : Instr) (after : List Instr), c.wf → i.wf c →
    decode c ((encodeAll c (before ++ i :: after)).drop (before.map Instr.length).sum) = .ok (i, encodeAll c after)

/-- Fetched bytes past the end of an instruction take no part in the step (40_fetch_decode_dispatch.md R71, which the spec
derives): two running machines that differ only in memory outside the instruction's own bytes run the same instruction, with the
same result. A RET's result is the same where the byte it pops is (R71 is about the fetched bytes). The memories after the step
differ only where they differed before: each byte is as it was in its own memory, or the two are alike. -/
def Obligations.BytesAfterInstructionIgnored : Prop :=
  ∀ (s : State) (m : Memory) (i : Instr), s.status = .running → s.fetchDecode = .ok i →
    (∀ k, k < i.length → m.readByte (s.pc.toNat + k) = s.byteAt (s.pc.toNat + k)) →
    step s = exec i s ∧ step (s.setMem m) = exec i (s.setMem m) ∧
    (s.mem.wf → m.wf → (i = .ret → m.readByte (s.reg spReg).toNat = s.byteAt (s.reg spReg).toNat) →
      ∃ t u, step s = .next t ∧ step (s.setMem m) = .next u ∧ u.setMem t.mem = t ∧
        ∀ addr, u.byteAt addr = t.byteAt addr ∨
          (t.byteAt addr = s.byteAt addr ∧ u.byteAt addr = m.readByte addr))

/-- Placing a word of the opcode table where the machine fetches makes the very next step run what the decoder reads from it,
from any state, whatever its STATUS, `pc` or memory. The model's own arrangement (log 5, log 7). -/
def Obligations.PlacedTableWordRunsNext : Prop :=
  ∀ (s : State) (nbits w : Nat) (i : Instr), s.mem.wf → decodeTableWord nbits w = some i →
    step (s.withFetchWord nbits w) = exec i (s.withFetchWord nbits w)

/-! ### The step -/

/-- When the bytes at the program counter decode to an instruction, the step is that instruction's meaning
(40_fetch_decode_dispatch.md R66). -/
def Obligations.StepRunsDecodedInstruction : Prop :=
  ∀ (s : State) (i : Instr) (rest : List Byte), s.status = .running → s.pc.toNat ≤ 253 →
    decode s.cfg [s.byteAt s.pc.toNat, s.byteAt (s.pc.toNat + 1), s.byteAt (s.pc.toNat + 2)] = .ok (i, rest) →
    step s = exec i s

/-- A step at 254 or 255 raises `OutOfBounds` whatever byte is there, an unknown opcode included (40_fetch_decode_dispatch.md
R61 and 60_exceptions.md R102: the spec's decisions D5 and D20, log 14; that nothing else changes is D7, log 11). -/
def Obligations.FetchBoundRaises : Prop :=
  ∀ s : State, s.status = .running → 253 < s.pc.toNat → Raises .outOfBounds s (step s)

/-- An opcode byte that is no implemented instruction's raises `UnknownInstruction` and changes nothing but STATUS
(40_fetch_decode_dispatch.md R63). -/
def Obligations.UnknownOpcodeRaises : Prop :=
  ∀ s : State, s.status = .running → s.pc.toNat ≤ 253 →
    (∀ m, s.cfg.implements m = true → s.cfg.opcodes.byte m ≠ s.byteAt s.pc.toNat) →
    Raises .unknownInstruction s (step s)

/-- Under the spec's defaults a step raises `UnknownInstruction` at exactly the opcode bytes other than nine
(30_encoding.md R53, resting on the default bytes, log 3). -/
def Obligations.DefaultMapUnknownBytes : Prop :=
  ∀ s : State, s.status = .running → s.pc.toNat ≤ 253 → s.cfg = Config.default →
    (Raises .unknownInstruction s (step s) ↔
      s.byteAt s.pc.toNat ∉ [0x01, 0x47, 0x50, 0x54, 0x55, 0x56, 0x82, 0xA2, 0xA7])

/-- A step of a machine that is not running changes nothing at all (40_fetch_decode_dispatch.md R70: the spec's decision D13,
log 16). -/
def Obligations.StoppedStepChangesNothing : Prop :=
  ∀ s : State, s.status ≠ .running → step s = .next s

/-- What `step` gives the host (70_reset_and_hazards.md R121): it always answers, with the new STATUS: `Running` after an
instruction that completed other than HLT, `Halted` after HLT, `Error(K)` after a raise. That a machine that is not running
answers its unchanged STATUS, and is unchanged, is the spec's decision D13 (log 16), that a raise changes nothing else D7
(log 11). -/
def Obligations.StepAnswersNewStatus : Prop :=
  ∀ h : Session, ∃ t, step h.machine = .next t ∧ h.serve .step = (⟨t, false⟩, .status t.status) ∧
    (h.machine.status ≠ .running → t = h.machine) ∧
    (h.machine.status = .running → h.machine.fetchDecode = .ok .hlt → t.status = .halted) ∧
    (h.machine.status = .running → ∀ i, h.machine.fetchDecode = .ok i → i ≠ .hlt →
      t.status = .running ∨ ∃ k, ErrorEntered k h.machine t) ∧
    (h.machine.status = .running → ∀ k, h.machine.fetchDecode = .error k → ErrorEntered k h.machine t)

/-! ### Load, print, halt -/

/-- LDI, whole (41_load_print_halt.md R73): encoding, effect, what it leaves, that a PRN of the same register right after it
emits the immediate, and both errors. The successor's error is the spec's decision D6 (log 15), that an error changes nothing
else D7 (log 11). -/
def Obligations.LdiLoadsImmediate : Prop :=
  ∀ (a b : Byte) (s : State),
    Encodes (.ldi a b) (fun m => [m.ldi, a, b]) ∧
    (∀ r : Fin 8, a.toNat = r.val → s.pc.toNat + 3 ≤ 255 →
      ∃ t, exec (.ldi a b) s = .next t ∧ t.reg r = b ∧ t.pc.toNat = s.pc.toNat + 3 ∧
        RegsKeptExcept [r] s t ∧ SpecialsKept s t ∧ BytesKeptExcept [] s t ∧
        (t.pc.toNat ≤ 253 → ∃ u, exec (.prn a) t = .next u ∧ u.out = s.out ++ [b])) ∧
    (7 < a.toNat ∨ 255 < s.pc.toNat + 3 → Raises .outOfBounds s (exec (.ldi a b) s))

/-- PRN, whole (41_load_print_halt.md R74), wherever it can be fetched: one value is emitted, which the sink shows in decimal;
an index out of range raises and emits nothing. That an error changes nothing else is the spec's decision D7 (log 11), that the
sink puts the configured separator after each value, whatever it is, D12 (log 19). -/
def Obligations.PrnEmitsRegister : Prop :=
  ∀ (a : Byte) (s : State), s.pc.toNat ≤ 253 →
    Encodes (.prn a) (fun m => [m.prn, a]) ∧
    (∀ r : Fin 8, a.toNat = r.val →
      ∃ t, exec (.prn a) s = .next t ∧ t.out = s.out ++ [s.reg r] ∧
        t.shownText = s.shownText ++ Nat.toDigits 10 (s.reg r).toNat ++ s.cfg.outSeparator ∧
        t.pc.toNat = s.pc.toNat + 2 ∧ t.fl = s.fl ∧ t.status = s.status ∧ t.cfg = s.cfg ∧
        RegsKeptExcept [] s t ∧ BytesKeptExcept [] s t) ∧
    (7 < a.toNat → Raises .outOfBounds s (exec (.prn a) s))

/-- HLT (41_load_print_halt.md R75): STATUS becomes `Halted` and nothing else changes; that `pc` stays is the spec's decision
D8 (log 12), that a further step does nothing D13 (log 16). -/
def Obligations.HltStopsTheMachine : Prop :=
  ∀ s : State, Encodes .hlt (fun m => [m.hlt]) ∧
    ∃ t, exec .hlt s = .next t ∧ t.status = .halted ∧ t.pc = s.pc ∧ t.fl = s.fl ∧ t.out = s.out ∧ t.cfg = s.cfg ∧
      RegsKeptExcept [] s t ∧ BytesKeptExcept [] s t ∧ step t = .next t

/-! ### The ALU -/

/-- The ALU's operations as exact integer arithmetic (42_alu.md R77, R78, R79), with the product's property at the Multiply
instruction that R78 quotes. -/
def Obligations.AluComputesExactly : Prop :=
  (∀ (a b : Byte) (r q : Fin 8) (s : State), a.toNat = r.val → b.toNat = q.val → s.pc.toNat + 3 ≤ 255 →
    ∃ t, exec (.mul a b) s = .next t ∧ (t.reg r).toNat = (s.reg r).toNat * (s.reg q).toNat % 256) ∧
  ∀ va vb : Byte,
    (∃ v, aluApply .add va vb = .register v ∧ v.toNat = (va.toNat + vb.toNat) % 256) ∧
    (∃ v, aluApply .mul va vb = .register v ∧ v.toNat = va.toNat * vb.toNat % 256) ∧
    (va.toNat < vb.toNat → aluApply .cmp va vb = .flags .lessThan) ∧
    (va.toNat > vb.toNat → aluApply .cmp va vb = .flags .greaterThan) ∧
    (va = vb → aluApply .cmp va vb = .flags .equal)

/-- The ALU's laws (42_alu.md R84, which the spec derives): both operations commute, their units and zero, the comparison is a
trichotomy that turns round, and sum and product are also the low byte of the two's-complement result. -/
def Obligations.AluObeysArithmeticLaws : Prop :=
  ∀ va vb : Byte,
    aluApply .add va vb = aluApply .add vb va ∧
    aluApply .mul va vb = aluApply .mul vb va ∧
    aluApply .add va 0 = .register va ∧
    aluApply .mul va 1 = .register va ∧
    aluApply .mul va 0 = .register 0 ∧
    (aluApply .cmp va vb = .flags .equal ↔ va = vb) ∧
    (aluApply .cmp va vb = .flags .lessThan ↔ aluApply .cmp vb va = .flags .greaterThan) ∧
    aluApply .cmp va vb ≠ .flags .unset ∧
    aluApply .add va vb = .register (BitVec.ofInt 8 (va.toInt + vb.toInt)) ∧
    aluApply .mul va vb = .register (BitVec.ofInt 8 (va.toInt * vb.toInt))

/-- Select 3 of the ALU is `UnsupportedOperation` for all values, raised like any other error by a step that reaches it, and no
instruction reaches it (42_alu.md R80, 60_exceptions.md R98: the spec's decision D16, log 23; that the raise changes nothing else is
60_exceptions.md R103, the spec's decision D7, log 11). -/
def Obligations.UnsupportedOperationUnreachable : Prop :=
  (∀ va vb : Byte, aluApply (aluSelect 3) va vb = .error .unsupportedOperation) ∧
  (∀ (a b : Byte) (s : State), a.toNat < 8 → b.toNat < 8 →
    Raises .unsupportedOperation s (s.settle (s.aluInstr .unsupported a b))) ∧
  (∀ (i : Instr) (s t : State), exec i s = .next t → s.status ≠ .error .unsupportedOperation →
    t.status ≠ .error .unsupportedOperation)

/-- MUL, whole (42_alu.md R81; the successor's error is the spec's decision D6, log 15, that an error changes nothing else D7,
log 11). -/
def Obligations.MulMultipliesRegisters : Prop :=
  ∀ (a b : Byte) (s : State),
    Encodes (.mul a b) (fun m => [m.mul, a, b]) ∧
    (∀ r q : Fin 8, a.toNat = r.val → b.toNat = q.val → s.pc.toNat + 3 ≤ 255 →
      ∃ t, exec (.mul a b) s = .next t ∧ (t.reg r).toNat = (s.reg r).toNat * (s.reg q).toNat % 256 ∧
        t.pc.toNat = s.pc.toNat + 3 ∧ RegsKeptExcept [r] s t ∧ SpecialsKept s t ∧ BytesKeptExcept [] s t) ∧
    (7 < a.toNat ∨ 7 < b.toNat ∨ 255 < s.pc.toNat + 3 → Raises .outOfBounds s (exec (.mul a b) s))

/-- CMP, whole (42_alu.md R82; D6 and D7 as for MUL, logs 15 and 11). -/
def Obligations.CmpSetsFlags : Prop :=
  ∀ (a b : Byte) (s : State),
    Encodes (.cmp a b) (fun m => [m.cmp, a, b]) ∧
    (∀ r q : Fin 8, a.toNat = r.val → b.toNat = q.val → s.pc.toNat + 3 ≤ 255 →
      ∃ t, exec (.cmp a b) s = .next t ∧
        ((s.reg r).toNat = (s.reg q).toNat → t.fl = .equal) ∧
        ((s.reg r).toNat < (s.reg q).toNat → t.fl = .lessThan) ∧
        ((s.reg q).toNat < (s.reg r).toNat → t.fl = .greaterThan) ∧
        t.pc.toNat = s.pc.toNat + 3 ∧ t.status = s.status ∧ t.out = s.out ∧ t.cfg = s.cfg ∧
        RegsKeptExcept [] s t ∧ BytesKeptExcept [] s t) ∧
    (7 < a.toNat ∨ 7 < b.toNat ∨ 255 < s.pc.toNat + 3 → Raises .outOfBounds s (exec (.cmp a b) s))

/-- ADD (42_alu.md R83): the instruction form is the spec's decision D10 (log 5); D6 and D7 as for MUL (logs 15 and 11). -/
def Obligations.AddSumsRegisters : Prop :=
  ∀ (a b : Byte) (s : State),
    Encodes (.add a b) (fun m => [m.add, a, b]) ∧
    (∀ r q : Fin 8, a.toNat = r.val → b.toNat = q.val → s.pc.toNat + 3 ≤ 255 →
      ∃ t, exec (.add a b) s = .next t ∧ (t.reg r).toNat = ((s.reg r).toNat + (s.reg q).toNat) % 256 ∧
        t.pc.toNat = s.pc.toNat + 3 ∧ RegsKeptExcept [r] s t ∧ SpecialsKept s t ∧ BytesKeptExcept [] s t) ∧
    (7 < a.toNat ∨ 7 < b.toNat ∨ 255 < s.pc.toNat + 3 → Raises .outOfBounds s (exec (.add a b) s))

/-! ### The stack and control transfer -/

/-- Push, whole (43_control_and_stack.md R85): both its cases, what it leaves, and that no instruction but CALL stores. -/
def Obligations.PushStoresBelowStackPointer : Prop :=
  (∀ (v : Byte) (s : State), s.mem.wf →
    (s.reg spReg = 0 → s.push v = .error .outOfBounds) ∧
    (s.reg spReg ≠ 0 → ∃ t, s.push v = .ok t ∧ (t.reg spReg).toNat + 1 = (s.reg spReg).toNat ∧
      t.byteAt (t.reg spReg).toNat = v ∧ t.pc = s.pc ∧ RegsKeptExcept [spReg] s t ∧ SpecialsKept s t ∧
      BytesKeptExcept [(s.reg spReg - 1).toNat] s t)) ∧
  (∀ (i : Instr) (s t : State) (addr : Nat), exec i s = .next t → t.byteAt addr ≠ s.byteAt addr → ∃ a, i = .call a)

/-- Pop (43_control_and_stack.md R86, 90_conflicts.md C7): it reads the cell at the stack pointer, moves the pointer up by one and
writes no memory; at 255 it raises. -/
def Obligations.PopReadsAtStackPointer : Prop :=
  ∀ s : State,
    (s.reg spReg = 255 → s.pop = .error .outOfBounds) ∧
    (s.reg spReg ≠ 255 → ∃ t, s.pop = .ok (s.byteAt (s.reg spReg).toNat, t) ∧
      (t.reg spReg).toNat = (s.reg spReg).toNat + 1 ∧ t.pc = s.pc ∧ RegsKeptExcept [spReg] s t ∧ SpecialsKept s t ∧
      BytesKeptExcept [] s t)

/-- CALL (43_control_and_stack.md R87), wherever it can be fetched. That `CALL R7` jumps to the decremented stack pointer is the
spec's decision D9 (log 13), that an error changes nothing else D7 (log 11). The byte stored to is at the stack pointer less
one. -/
def Obligations.CallPushesReturnAddress : Prop :=
  ∀ (a : Byte) (s : State), s.mem.wf → s.pc.toNat ≤ 253 →
    Encodes (.call a) (fun m => [m.call, a]) ∧
    (∀ r : Fin 8, a.toNat = r.val → s.reg spReg ≠ 0 →
      ∃ t, exec (.call a) s = .next t ∧ (t.reg spReg).toNat + 1 = (s.reg spReg).toNat ∧
        (t.byteAt (s.reg spReg - 1).toNat).toNat = s.pc.toNat + 2 ∧
        t.pc = (if r = spReg then s.reg spReg - 1 else s.reg r) ∧
        RegsKeptExcept [spReg] s t ∧ SpecialsKept s t ∧ BytesKeptExcept [(s.reg spReg - 1).toNat] s t) ∧
    (7 < a.toNat ∨ s.reg spReg = 0 → Raises .outOfBounds s (exec (.call a) s))

/-- JMP, whole (43_control_and_stack.md R88; that an error changes nothing else is the spec's decision D7, log 11). -/
def Obligations.JmpJumpsToRegister : Prop :=
  ∀ (a : Byte) (s : State),
    Encodes (.jmp a) (fun m => [m.jmp, a]) ∧
    (∀ r : Fin 8, a.toNat = r.val →
      ∃ t, exec (.jmp a) s = .next t ∧ t.pc = s.reg r ∧ RegsKeptExcept [] s t ∧ SpecialsKept s t ∧
        BytesKeptExcept [] s t) ∧
    (7 < a.toNat → Raises .outOfBounds s (exec (.jmp a) s))

/-- JEQ (43_control_and_stack.md R89), wherever it can be fetched: taken exactly on `Equal`, so not on `Unset`. That the operand
is examined only if the jump is taken is the spec's decision D21 (log 18), that an error changes nothing else D7 (log 11). -/
def Obligations.JeqJumpsOnlyOnEqual : Prop :=
  ∀ (a : Byte) (s : State), s.pc.toNat ≤ 253 →
    Encodes (.jeq a) (fun m => [m.jeq, a]) ∧
    (s.fl = .equal → ∀ r : Fin 8, a.toNat = r.val →
      ∃ t, exec (.jeq a) s = .next t ∧ t.pc = s.reg r ∧ RegsKeptExcept [] s t ∧ SpecialsKept s t ∧
        BytesKeptExcept [] s t) ∧
    (s.fl = .equal → 7 < a.toNat → Raises .outOfBounds s (exec (.jeq a) s)) ∧
    (s.fl ≠ .equal →
      ∃ t, exec (.jeq a) s = .next t ∧ t.pc.toNat = s.pc.toNat + 2 ∧ RegsKeptExcept [] s t ∧ SpecialsKept s t ∧
        BytesKeptExcept [] s t)

/-- JNE (43_control_and_stack.md R90), wherever it can be fetched: taken exactly when not `Equal`, so on `Unset` too (D21 and
D7 as for JEQ, logs 18 and 11). -/
def Obligations.JneJumpsUnlessEqual : Prop :=
  ∀ (a : Byte) (s : State), s.pc.toNat ≤ 253 →
    Encodes (.jne a) (fun m => [m.jne, a]) ∧
    (s.fl ≠ .equal → ∀ r : Fin 8, a.toNat = r.val →
      ∃ t, exec (.jne a) s = .next t ∧ t.pc = s.reg r ∧ RegsKeptExcept [] s t ∧ SpecialsKept s t ∧
        BytesKeptExcept [] s t) ∧
    (s.fl ≠ .equal → 7 < a.toNat → Raises .outOfBounds s (exec (.jne a) s)) ∧
    (s.fl = .equal →
      ∃ t, exec (.jne a) s = .next t ∧ t.pc.toNat = s.pc.toNat + 2 ∧ RegsKeptExcept [] s t ∧ SpecialsKept s t ∧
        BytesKeptExcept [] s t)

/-- RET (43_control_and_stack.md R91): the form is the spec's decision D10 (log 5), that an error changes nothing else D7
(log 11). -/
def Obligations.RetPopsProgramCounter : Prop :=
  ∀ s : State,
    Encodes .ret (fun m => [m.ret]) ∧
    (s.reg spReg ≠ 255 →
      ∃ t, exec .ret s = .next t ∧ t.pc = s.byteAt (s.reg spReg).toNat ∧
        (t.reg spReg).toNat = (s.reg spReg).toNat + 1 ∧ RegsKeptExcept [spReg] s t ∧ SpecialsKept s t ∧
        BytesKeptExcept [] s t) ∧
    (s.reg spReg = 255 → Raises .outOfBounds s (exec .ret s))

/-- A subroutine returns (43_control_and_stack.md R91, 95_test_vectors.md S5): after a CALL, a RET in any later state with the
same stack pointer and the same byte at it gives `pc` the address after the CALL and the stack pointer its old value, and the
pushed byte remains in memory. RET's form is the spec's decision D10 (log 5). -/
def Obligations.RetUndoesCall : Prop :=
  ∀ (a : Byte) (s t u : State), s.mem.wf → s.pc.toNat ≤ 253 → s.status = .running →
    exec (.call a) s = .next t → t.status = .running →
    u.reg spReg = t.reg spReg → u.byteAt (t.reg spReg).toNat = t.byteAt (t.reg spReg).toNat →
    ∃ v, exec .ret u = .next v ∧ v.pc.toNat = s.pc.toNat + 2 ∧ v.reg spReg = s.reg spReg ∧
      v.byteAt (t.reg spReg).toNat = t.byteAt (t.reg spReg).toNat

/-- A byte pushed by CALL is seen by the very next fetch of its cell, with nothing in between (20_memory.md R43: the spec's
decision D17, log 24). -/
def Obligations.PushedByteIsFetchedNext : Prop :=
  ∀ (a : Byte) (s t : State) (bs : List Byte), s.mem.wf → s.pc.toNat ≤ 253 → s.status = .running →
    exec (.call a) s = .next t → t.status = .running → t.fetch = .ok bs →
    ∀ k, k < 3 → (bs[k]?.map BitVec.toNat) = some
      (if t.pc.toNat + k = (t.reg spReg).toNat then s.pc.toNat + 2 else (s.byteAt (t.pc.toNat + k)).toNat)

/-- Outside the reach of a fetch, at 254 and 255, an instruction that must form the address after it raises and does nothing:
what `exec` does there is the model's choice (DESIGN CHOICE, log 6), by the rule for successors (40_fetch_decode_dispatch.md R65). -/
def Obligations.NoSuccessorPastMemory : Prop :=
  ∀ (a : Byte) (s : State), 253 < s.pc.toNat →
    Raises .outOfBounds s (exec (.prn a) s) ∧
    Raises .outOfBounds s (exec (.call a) s) ∧
    (s.fl ≠ .equal → Raises .outOfBounds s (exec (.jeq a) s)) ∧
    (s.fl = .equal → Raises .outOfBounds s (exec (.jne a) s))

/-- A program that jumps to the jump itself never ends (40_fetch_decode_dispatch.md R72): after any number of steps the machine is
in the same running state. -/
def Obligations.JumpToItselfNeverEnds : Prop :=
  ∀ (s : State) (a : Byte) (r : Fin 8) (n : Nat), s.status = .running → s.fetchDecode = .ok (.jmp a) → a.toNat = r.val →
    s.reg r = s.pc → stepTimes n s = .next s

/-! ### Registers, memory, program counter, flags, output: rules over all instructions -/

/-- Register access by a whole operand byte (10_state.md R14, 30_encoding.md R48): 0..7 reads and writes that register and no
other; 8..255 raises and is never truncated (checked on access: the spec's decision D21, log 18). -/
def Obligations.RegisterIndexIsWholeByte : Prop :=
  ∀ (a v : Byte) (s : State),
    (∀ r : Fin 8, a.toNat = r.val → s.readReg a = .ok (s.reg r) ∧
      ∃ t, s.writeReg a v = .ok t ∧ t.reg r = v ∧ t.pc = s.pc ∧ RegsKeptExcept [r] s t ∧ SpecialsKept s t ∧
        BytesKeptExcept [] s t) ∧
    (7 < a.toNat → s.readReg a = .error .outOfBounds ∧ s.writeReg a v = .error .outOfBounds)

/-- Memory is 256 plain cells (20_memory.md R33, R36, which the spec derives in part): a write is read back, leaves every other
cell and everything else alone and keeps the canonical form; an address past 255 raises and is never reduced. -/
def Obligations.MemoryHoldsWhatWasWritten : Prop :=
  ∀ (s : State) (addr : Nat) (v : Byte), s.mem.wf →
    (addr ≤ 255 → ∃ t, s.memWrite addr v = .ok t ∧ t.mem.wf ∧ t.memRead addr = .ok v ∧
      (∀ x, x ≠ addr → t.memRead x = s.memRead x) ∧ t.pc = s.pc ∧ RegsKeptExcept [] s t ∧ SpecialsKept s t) ∧
    (255 < addr → s.memRead addr = .error .outOfBounds ∧ s.memWrite addr v = .error .outOfBounds)

/-- Two canonical memories with the same 256 cells are the same data: the model's form of memory holds nothing else
(the canonical form is the model's, log 25). -/
def Obligations.EqualCellsEqualMemory : Prop :=
  ∀ m n : Memory, m.wf → n.wf → (∀ addr, addr ≤ 255 → m.readByte addr = n.readByte addr) → m = n

/-- Every instruction of a running machine either raises, and then `pc` stays, or leaves `pc` where its descriptor's rule says
(40_fetch_decode_dispatch.md R62, R65; 10_state.md R17; HLT's is the spec's decision D8, log 12, the one after an error D7,
log 11, the error of a successor past 255 D6, log 15; CALL's target is read after the push, 43_control_and_stack.md R87, the spec's
decision D9, log 13). -/
def Obligations.PcFollowsDescriptor : Prop :=
  ∀ (i : Instr) (s t : State), s.status = .running → exec i s = .next t →
    (t.failed → t.pc = s.pc) ∧ (¬ t.failed → PcByRule i s t)

/-- What each instruction may change, over all instructions (40_fetch_decode_dispatch.md R62, the column "state written"): a
register only by its writers, the flags only by CMP, OUT only by PRN, a memory cell only by CALL and only the one under the stack
pointer, STATUS only by HLT and by an error (which changes nothing else: the spec's decision D7, log 11), the configuration by none. -/
def Obligations.InstructionsWriteOnlyTheirState : Prop :=
  ∀ (i : Instr) (s t : State), s.mem.wf → exec i s = .next t →
    (∀ q, t.reg q ≠ s.reg q → MayWriteReg i q) ∧
    (t.fl ≠ s.fl → ∃ a b, i = .cmp a b) ∧
    (t.out ≠ s.out → ∃ a, i = .prn a) ∧
    (∀ addr, t.byteAt addr ≠ s.byteAt addr → (∃ a, i = .call a) ∧ addr = (s.reg spReg - 1).toNat) ∧
    (t.status ≠ s.status → i = .hlt ∨ ∃ k, ErrorEntered k s t) ∧
    t.cfg = s.cfg

/-- Writers and readers of the flags (10_state.md R21): CMP alone writes them, never `Unset`, and what it writes does not depend on
what they were; only JEQ and JNE read them, and they test only whether they are `Equal`: any other difference of `fl` makes no
difference to anything else. -/
def Obligations.FlagsHaveOneWriterAndOneTest : Prop :=
  ∀ (i : Instr) (s t : State) (f : Flag), exec i s = .next t →
    (t.fl ≠ s.fl → ∃ a b, i = .cmp a b) ∧
    ((∃ a b, i = .cmp a b) → s.status = .running → t.status = .running →
      t.fl ≠ .unset ∧ exec i (s.setFl f) = .next t) ∧
    ((∀ a, i ≠ .jeq a ∧ i ≠ .jne a) ∨ (f = .equal ↔ s.fl = .equal) →
      ∃ u, exec i (s.setFl f) = .next u ∧ u.setFl t.fl = t)

/-- Once the flags hold an outcome they are never `Unset` again, however many steps follow (10_state.md R19). -/
def Obligations.ComparedFlagsStayCompared : Prop :=
  ∀ (n : Nat) (s t : State), stepTimes n s = .next t → s.fl ≠ .unset → t.fl ≠ .unset

/-- OUT only grows, by at most one value a step, and is never read (10_state.md R24, R30; as a list it is the spec's decision
D12, log 19): whatever it held before, the step does the same. -/
def Obligations.OutputGrowsAndIsNeverRead : Prop :=
  ∀ (s t : State) (o : List Byte), step s = .next t →
    ∃ l : List Byte, l.length ≤ 1 ∧ t.out = s.out ++ l ∧
      step { s with out := o } = .next { t with out := o ++ l }

/-! ### Errors and the end of a run -/

/-- Errors are precise (60_exceptions.md R103: for the kinds other than `UnknownInstruction` the spec's decision D7, log 11): a step
that ends in an error changed nothing but STATUS, and its kind is one `step` can raise (R95, R98, R99). -/
def Obligations.ErrorsArePrecise : Prop :=
  ∀ s t : State, s.status = .running → step s = .next t → t.failed →
    ErrorEntered .unknownInstruction s t ∨ ErrorEntered .outOfBounds s t

/-- A run succeeds only by a HLT (70_reset_and_hazards.md R128, which the spec derives): a step into `Halted` ran a HLT and
changed nothing but STATUS. -/
def Obligations.OnlyHltSucceeds : Prop :=
  ∀ s t : State, s.status = .running → step s = .next t → t.succeeded →
    s.fetchDecode = .ok .hlt ∧ t.pc = s.pc ∧ t.fl = s.fl ∧ t.out = s.out ∧ RegsKeptExcept [] s t ∧ BytesKeptExcept [] s t

/-- STATUS leaves `Running` at most once (10_state.md R23, R30): a machine found stopped after `n` steps is in that same state
after any more (a further step doing nothing is the spec's decision D13, log 16). -/
def Obligations.StoppedMachineStaysStopped : Prop :=
  ∀ (n m : Nat) (s t : State), stepTimes n s = .next t → t.status ≠ .running →
    stepTimes (n + m) s = .next t

/-- `run` is the repetition of `step` until STATUS is not `Running` (40_fetch_decode_dispatch.md R68, 70_reset_and_hazards.md R120;
the fuel is the model's, log 10): it stops at the first state that is not running, or when the fuel is used up. -/
def Obligations.RunRepeatsStepUntilStopped : Prop :=
  ∀ (n : Nat) (s : State), ∃ k t, k ≤ n ∧ State.run n s = .next t ∧ stepTimes k s = .next t ∧
    (t.status ≠ .running ∨ k = n) ∧
    ∀ j u, j < k → stepTimes j s = .next u → u.status = .running

/-! ### Reset, load, and the invariant -/

/-- The values after reset (10_state.md R29), in every configuration and in the default one; a later reset is the same
construction (70_reset_and_hazards.md R113: the spec's decision D24, log 22; 0xF4 is its default D3, log 4). -/
def Obligations.ResetGivesSpecValues : Prop :=
  (∀ (c : Config) (h : Session), h.machine.cfg = c → (h.serve .reset).1 = Session.start c ∧
    (Session.start c).machine = State.resetWith c ∧
    (∀ r : Fin 8, (State.resetWith c).reg r = if r = spReg then c.spInit else 0) ∧
    (State.resetWith c).pc = 0 ∧ (State.resetWith c).fl = .unset ∧ (State.resetWith c).status = .running ∧
    (∀ addr, (State.resetWith c).byteAt addr = 0) ∧ (State.resetWith c).out = []) ∧
  State.reset = State.resetWith Config.default ∧ State.reset.reg spReg = 0xF4

/-- Without a program the first step raises `UnknownInstruction` at address 0 in every machine in which 0 is no opcode
(70_reset_and_hazards.md R115, 30_encoding.md R53). -/
def Obligations.NoProgramRaisesUnknown : Prop :=
  ∀ c : Config, (∀ m, c.implements m = true → c.opcodes.byte m ≠ 0) →
    Raises .unknownInstruction (State.resetWith c) (step (State.resetWith c))

/-- Loading (70_reset_and_hazards.md R118: on the reset state only is the spec's decision D14, log 9): up to 256 bytes go to the
cells from 0 upward, the other cells and everything else stay as reset left them. -/
def Obligations.LoadFillsMemoryFromZero : Prop :=
  ∀ (c : Config) (bytes : List Byte), bytes.length ≤ 256 →
    ∃ t, (Session.start c).load bytes = .next t ∧ (Session.start c).serve (.load bytes) = (⟨t, false⟩, .loaded) ∧
      (∀ addr, t.byteAt addr = bytes[addr]?.getD 0) ∧ t.mem.wf ∧
      t.pc = 0 ∧ RegsKeptExcept [] (State.resetWith c) t ∧ SpecialsKept (State.resetWith c) t

/-- Loading more than 256 bytes (70_reset_and_hazards.md R119): `LoadTooLarge`, and the machine is exactly as it was, no cell
written and still `Running`. -/
def Obligations.OversizedLoadChangesNothing : Prop :=
  ∀ (c : Config) (bytes : List Byte), 256 < bytes.length →
    (Session.start c).load bytes = .fault .loadTooLarge ∧
    (Session.start c).serve (.load bytes) = (Session.start c, .failed .loadTooLarge) ∧
    (Session.start c).machine.status = .running

/-- A load on a used machine, and on any state other than the reset state, is refused and changes nothing (70_reset_and_hazards.md
R118: the spec's decision D14, log 9). -/
def Obligations.LateLoadIsRefused : Prop :=
  ∀ (h : Session) (bytes : List Byte), h.unused = false ∨ h.machine ≠ State.resetWith h.machine.cfg →
    h.serve (.load bytes) = (h, .turnedDown .loadAfterReset)

/-- A load is allowed once, and before the first step (70_reset_and_hazards.md R117, R118: the spec's decision D14, log 9): after a
step, a run with fuel, or a load that was not too large, and until the next reset, every load is refused and changes nothing, whatever
the step or the load left in the machine. -/
def Obligations.LoadIsOnceAndBeforeFirstStep : Prop :=
  ∀ (h : Session) (req : Request) (reqs : List Request) (bytes : List Byte),
    (req = .step ∨ (∃ n, req = .run (n + 1)) ∨ ∃ bs : List Byte, req = .load bs ∧ bs.length ≤ 256) → .reset ∉ reqs →
    ((h.serve req).1.serveAll reqs).serve (.load bytes) =
      ((h.serve req).1.serveAll reqs, .turnedDown .loadAfterReset)

/-- THE INVARIANT: every step, from every state that meets it, keeps memory canonical and inside its 256 cells, STATUS one a run
can have, and the configuration with its injective opcode map (10_state.md R28, R30; 60_exceptions.md R98, R99; 30_encoding.md
R52). -/
def Obligations.StepKeepsInvariant : Prop :=
  ∀ (c : Config) (s t : State), s.Inv c → step s = .next t → t.Inv c

/-- The reset state meets the invariant in every machine with an injective opcode map, the default one among them. -/
def Obligations.ResetMeetsInvariant : Prop :=
  (∀ c : Config, c.wf → (State.resetWith c).Inv c) ∧ State.reset.Inv Config.default

/-- Every state a run reaches from reset, by any load and any steps, meets the invariant (10_state.md R30). -/
def Obligations.ReachableStatesMeetInvariant : Prop :=
  ∀ (c : Config) (s : State), c.wf → Reachable c s → s.Inv c

/-- Every operation of the host, from every session that meets it, keeps the machine's invariant and that a machine counted unused is
in its reset state (10_state.md R30; 70_reset_and_hazards.md R117, R118: D14, log 9). A session that starts meets it. -/
def Obligations.HostRequestsKeepInvariant : Prop :=
  (∀ (c : Config) (h : Session) (req : Request), h.Inv c → (h.serve req).1.Inv c) ∧
  ∀ c : Config, c.wf → (Session.start c).Inv c

/-- No instruction and no host operation changes the configuration (10_state.md R28): reset, load, one step or a run of any length
keeps the field that carries it (the field is the model's own, log 2). -/
def Obligations.NothingChangesConfiguration : Prop :=
  ∀ (h : Session) (req : Request), (h.serve req).1.machine.cfg = h.machine.cfg

/-- No step reads the separator, which is the sink's, or the initial stack pointer, which reset alone reads (00_scope.md R8,
70_reset_and_hazards.md R113; the parameters are the spec's decisions D12 and D3, logs 19 and 4; that State carries them is the model's
choice, log 2): with any other values the step does the same. -/
def Obligations.StepReadsNoSinkOrResetParameter : Prop :=
  ∀ (s t : State) (sp : Byte) (sep : List Char), step s = .next t →
    step { s with cfg := { s.cfg with spInit := sp, outSeparator := sep } } =
      .next { t with cfg := { t.cfg with spInit := sp, outSeparator := sep } }

/-- The ports of a rendering after a step (70_reset_and_hazards.md R124, 10_state.md R20, R22, 60_exceptions.md R100: the codes, the
flag bits and the ports are the spec's decisions D11, D4 and D19, log 21): the status code tells the three shapes apart, the error kind
is 0 exactly without an error and names the kinds a step can raise, the flag bits are at most one and say which, and the emitted values
are what the step added to OUT, at most one. -/
def Obligations.PortsShowTheStep : Prop :=
  ∀ (h g : Session) (r : Reply), h.serve .step = (g, r) →
    let s := h.machine
    let t := g.machine
    let p := portsAfter s t r
    (p.status = 0 ↔ t.status = .running) ∧
    (p.status = 1 ↔ t.succeeded) ∧
    (p.status = 2 ↔ t.failed) ∧
    (p.errKind = 0 ↔ ¬ t.failed) ∧
    (p.errKind = 1 ↔ t.status = .error .unknownInstruction) ∧
    (p.errKind = 2 ↔ t.status = .error .unsupportedOperation) ∧
    (p.errKind = 3 ↔ t.status = .error .outOfBounds) ∧
    (p.fl = 0b000 ↔ t.fl = .unset) ∧
    (p.fl = 0b001 ↔ t.fl = .equal) ∧
    (p.fl = 0b010 ↔ t.fl = .greaterThan) ∧
    (p.fl = 0b100 ↔ t.fl = .lessThan) ∧
    s.out ++ p.emitted = t.out ∧ p.emitted.length ≤ 1 ∧
    p.pc = t.pc ∧ ∀ q : Fin 8, p.regs[q.val] = t.reg q
end

