-- ==== Sys2Proof/Laws/Decode.lean ====
section
/-! SUPPORT. The decoder's lookup: what it finds and when it finds nothing. -/

namespace Sys2Proof

/-- A mnemonic is implemented exactly when it is in the list of implemented ones. -/
theorem mem_implemented {c : Config} {m : Mnemonic} : m ∈ c.implemented ↔ c.implements m = true := by
  cases m <;> simp [Config.implemented, Mnemonic.all, List.mem_filter]

/-- A descriptor belongs to its mnemonic. -/
@[simp] theorem descriptor_mnemonic (m : Mnemonic) : m.descriptor.mnemonic = m := by cases m <;> rfl

/-- A descriptor holds its mnemonic's format. -/
@[simp] theorem descriptor_format (m : Mnemonic) : m.descriptor.format = m.format := by cases m <;> rfl

/-- What the lookup finds is the descriptor of an implemented mnemonic with that opcode byte. -/
theorem lookup_eq_some {c : Config} {ir : Byte} {d : Descriptor} (h : c.lookup ir = some d) :
    ∃ m, c.implements m = true ∧ c.opcodes.byte m = ir ∧ d = m.descriptor := by
  obtain ⟨row, hrow, rfl⟩ := Option.map_eq_some_iff.mp h
  obtain ⟨m, hm, rfl⟩ := List.mem_map.mp (List.mem_of_find?_eq_some hrow)
  exact ⟨m, mem_implemented.mp hm, by simpa using List.find?_some hrow, rfl⟩

/-- The lookup finds nothing exactly when no implemented mnemonic has that opcode byte. -/
theorem lookup_eq_none {c : Config} {ir : Byte} :
    c.lookup ir = none ↔ ∀ m, c.implements m = true → c.opcodes.byte m ≠ ir := by
  simp only [Config.lookup, Option.map_eq_none_iff, List.find?_eq_none, Config.table, List.mem_map, beq_iff_eq,
    ← mem_implemented]
  constructor
  · intro h m hm
    exact h _ ⟨m, hm, rfl⟩
  · rintro h _ ⟨m, hm, rfl⟩
    exact h m hm

/-- In a well-formed configuration an implemented mnemonic's byte finds its own descriptor. -/
theorem lookup_byte {c : Config} (hc : c.wf) {m : Mnemonic} (hm : c.implements m = true) :
    c.lookup (c.opcodes.byte m) = some m.descriptor := by
  cases h : c.lookup (c.opcodes.byte m) with
  | none => exact absurd rfl (lookup_eq_none.mp h m hm)
  | some d =>
    obtain ⟨n, hn, hb, rfl⟩ := lookup_eq_some h
    rw [List.inj_on_of_nodup_map hc (mem_implemented.mpr hn) (mem_implemented.mpr hm) hb]

/-- How many operand bytes a mnemonic's instruction has. -/
theorem operandBytes_length (i : Instr) : i.operandBytes.length = i.mnemonic.format.operandCount := by
  cases i <;> rfl

end Sys2Proof
end

