-- ==== Sys2Proof/Laws/State.lean ====
section
/-! SUPPORT. One lemma per field per update of State, and reading a register after writing one. -/

namespace Sys2Proof.Machine

open Sys2Proof

variable (s : State)

@[simp] theorem State.setReg_pc (r : Fin 8) (v : Byte) : (s.setReg r v).pc = s.pc := rfl
@[simp] theorem State.setReg_fl (r : Fin 8) (v : Byte) : (s.setReg r v).fl = s.fl := rfl
@[simp] theorem State.setReg_status (r : Fin 8) (v : Byte) : (s.setReg r v).status = s.status := rfl
@[simp] theorem State.setReg_mem (r : Fin 8) (v : Byte) : (s.setReg r v).mem = s.mem := rfl
@[simp] theorem State.setReg_out (r : Fin 8) (v : Byte) : (s.setReg r v).out = s.out := rfl
@[simp] theorem State.setReg_cfg (r : Fin 8) (v : Byte) : (s.setReg r v).cfg = s.cfg := rfl
@[simp] theorem State.setReg_byteAt (r : Fin 8) (v : Byte) (a : Nat) : (s.setReg r v).byteAt a = s.byteAt a := rfl

@[simp] theorem State.setPc_pc (v : Byte) : (s.setPc v).pc = v := rfl
@[simp] theorem State.setPc_regs (v : Byte) : (s.setPc v).regs = s.regs := rfl
@[simp] theorem State.setPc_reg (v : Byte) (r : Fin 8) : (s.setPc v).reg r = s.reg r := rfl
@[simp] theorem State.setPc_fl (v : Byte) : (s.setPc v).fl = s.fl := rfl
@[simp] theorem State.setPc_status (v : Byte) : (s.setPc v).status = s.status := rfl
@[simp] theorem State.setPc_mem (v : Byte) : (s.setPc v).mem = s.mem := rfl
@[simp] theorem State.setPc_out (v : Byte) : (s.setPc v).out = s.out := rfl
@[simp] theorem State.setPc_cfg (v : Byte) : (s.setPc v).cfg = s.cfg := rfl
@[simp] theorem State.setPc_byteAt (v : Byte) (a : Nat) : (s.setPc v).byteAt a = s.byteAt a := rfl

@[simp] theorem State.setFl_fl (f : Flag) : (s.setFl f).fl = f := rfl
@[simp] theorem State.setFl_regs (f : Flag) : (s.setFl f).regs = s.regs := rfl
@[simp] theorem State.setFl_reg (f : Flag) (r : Fin 8) : (s.setFl f).reg r = s.reg r := rfl
@[simp] theorem State.setFl_pc (f : Flag) : (s.setFl f).pc = s.pc := rfl
@[simp] theorem State.setFl_status (f : Flag) : (s.setFl f).status = s.status := rfl
@[simp] theorem State.setFl_mem (f : Flag) : (s.setFl f).mem = s.mem := rfl
@[simp] theorem State.setFl_out (f : Flag) : (s.setFl f).out = s.out := rfl
@[simp] theorem State.setFl_cfg (f : Flag) : (s.setFl f).cfg = s.cfg := rfl
@[simp] theorem State.setFl_byteAt (f : Flag) (a : Nat) : (s.setFl f).byteAt a = s.byteAt a := rfl

@[simp] theorem State.setStatus_status (st : Status) : (s.setStatus st).status = st := rfl
@[simp] theorem State.setStatus_regs (st : Status) : (s.setStatus st).regs = s.regs := rfl
@[simp] theorem State.setStatus_reg (st : Status) (r : Fin 8) : (s.setStatus st).reg r = s.reg r := rfl
@[simp] theorem State.setStatus_pc (st : Status) : (s.setStatus st).pc = s.pc := rfl
@[simp] theorem State.setStatus_fl (st : Status) : (s.setStatus st).fl = s.fl := rfl
@[simp] theorem State.setStatus_mem (st : Status) : (s.setStatus st).mem = s.mem := rfl
@[simp] theorem State.setStatus_out (st : Status) : (s.setStatus st).out = s.out := rfl
@[simp] theorem State.setStatus_cfg (st : Status) : (s.setStatus st).cfg = s.cfg := rfl
@[simp] theorem State.setStatus_byteAt (st : Status) (a : Nat) : (s.setStatus st).byteAt a = s.byteAt a := rfl

@[simp] theorem State.setMem_mem (m : Memory) : (s.setMem m).mem = m := rfl
@[simp] theorem State.setMem_regs (m : Memory) : (s.setMem m).regs = s.regs := rfl
@[simp] theorem State.setMem_reg (m : Memory) (r : Fin 8) : (s.setMem m).reg r = s.reg r := rfl
@[simp] theorem State.setMem_pc (m : Memory) : (s.setMem m).pc = s.pc := rfl
@[simp] theorem State.setMem_fl (m : Memory) : (s.setMem m).fl = s.fl := rfl
@[simp] theorem State.setMem_status (m : Memory) : (s.setMem m).status = s.status := rfl
@[simp] theorem State.setMem_out (m : Memory) : (s.setMem m).out = s.out := rfl
@[simp] theorem State.setMem_cfg (m : Memory) : (s.setMem m).cfg = s.cfg := rfl
@[simp] theorem State.setMem_byteAt (m : Memory) (a : Nat) : (s.setMem m).byteAt a = m.readByte a := rfl

@[simp] theorem State.emit_out (v : Byte) : (s.emit v).out = s.out ++ [v] := rfl
@[simp] theorem State.emit_regs (v : Byte) : (s.emit v).regs = s.regs := rfl
@[simp] theorem State.emit_reg (v : Byte) (r : Fin 8) : (s.emit v).reg r = s.reg r := rfl
@[simp] theorem State.emit_pc (v : Byte) : (s.emit v).pc = s.pc := rfl
@[simp] theorem State.emit_fl (v : Byte) : (s.emit v).fl = s.fl := rfl
@[simp] theorem State.emit_status (v : Byte) : (s.emit v).status = s.status := rfl
@[simp] theorem State.emit_mem (v : Byte) : (s.emit v).mem = s.mem := rfl
@[simp] theorem State.emit_cfg (v : Byte) : (s.emit v).cfg = s.cfg := rfl
@[simp] theorem State.emit_byteAt (v : Byte) (a : Nat) : (s.emit v).byteAt a = s.byteAt a := rfl

/-- Reading a register after writing one: the value written, or what it was. -/
theorem State.reg_setReg (r q : Fin 8) (v : Byte) : (s.setReg r v).reg q = if r = q then v else s.reg q := by
  simp only [State.setReg, State.reg, Vector.getElem_set, Fin.ext_iff]

/-- The register written. -/
@[simp] theorem State.reg_setReg_same (r : Fin 8) (v : Byte) : (s.setReg r v).reg r = v := by
  simp [State.reg_setReg]

/-- A register not written. -/
theorem State.reg_setReg_other {r q : Fin 8} (v : Byte) (h : r ≠ q) : (s.setReg r v).reg q = s.reg q := by
  simp [State.reg_setReg, h]

end Sys2Proof.Machine
end

