-- ==== Sys2Proof/Laws/Ops.lean ====
section
/-! SUPPORT. One lemma per shared operation: everything it can answer. Cite these, do not unfold the operations. -/

namespace Sys2Proof.Machine

open Sys2Proof

variable {s t : State}

/-- Two computations one after the other succeed exactly when each does. -/
theorem bind_eq_ok {α β : Type} {x : Except ErrorKind α} {f : α → Except ErrorKind β} {b : β} :
    (x >>= f) = .ok b ↔ ∃ a, x = .ok a ∧ f a = .ok b := by
  cases x <;> simp [bind, Except.bind]

/-- Two computations one after the other raise when the first does, or when the second does after it. -/
theorem bind_eq_error {α β : Type} {x : Except ErrorKind α} {f : α → Except ErrorKind β} {k : ErrorKind} :
    (x >>= f) = .error k ↔ x = .error k ∨ ∃ a, x = .ok a ∧ f a = .error k := by
  cases x <;> simp [bind, Except.bind]

/-- Committing an instruction always gives a next state: its own, or the state with the error entered. -/
theorem settle_eq_next {x : Except ErrorKind State} :
    s.settle x = .next t ↔ x = .ok t ∨ ∃ k, x = .error k ∧ t = s.raise k := by
  cases x with
  | ok u => simp [State.settle]
  | error k => simp [State.settle, eq_comm]

/-- Committing never faults or refuses. -/
theorem settle_next (s : State) (x : Except ErrorKind State) : ∃ t, s.settle x = .next t := by
  cases x <;> exact ⟨_, rfl⟩

/-- A register index: the operand byte itself, when it is below 8. -/
theorem regIndex_eq_ok {a : Byte} {r : Fin 8} : regIndex a = .ok r ↔ a.toNat = r.val := by
  unfold regIndex
  split
  · simp [Fin.ext_iff]
  · have := r.isLt
    simp only [reduceCtorEq, false_iff]; omega

/-- A register index out of range raises `OutOfBounds`, and nothing else is raised. -/
theorem regIndex_eq_error {a : Byte} {k : ErrorKind} : regIndex a = .error k ↔ 8 ≤ a.toNat ∧ k = .outOfBounds := by
  unfold regIndex
  split <;> simp [eq_comm] <;> omega

/-- Reading a register by an operand byte. -/
theorem readReg_eq_ok {a v : Byte} : s.readReg a = .ok v ↔ ∃ r : Fin 8, a.toNat = r.val ∧ s.reg r = v := by
  simp only [State.readReg, bind_eq_ok, regIndex_eq_ok]
  constructor <;> rintro ⟨r, h, hv⟩ <;> exact ⟨r, h, by simpa [pure, Except.pure] using hv⟩

/-- When reading a register raises. -/
theorem readReg_eq_error {a : Byte} {k : ErrorKind} : s.readReg a = .error k ↔ 8 ≤ a.toNat ∧ k = .outOfBounds := by
  simp [State.readReg, bind_eq_error, regIndex_eq_error, pure, Except.pure]

/-- Writing a register by an operand byte. -/
theorem writeReg_eq_ok {a v : Byte} : s.writeReg a v = .ok t ↔ ∃ r : Fin 8, a.toNat = r.val ∧ t = s.setReg r v := by
  simp only [State.writeReg, bind_eq_ok, regIndex_eq_ok]
  constructor <;> rintro ⟨r, h, hv⟩ <;> exact ⟨r, h, by simpa [pure, Except.pure, eq_comm] using hv⟩

/-- When writing a register raises. -/
theorem writeReg_eq_error {a v : Byte} {k : ErrorKind} :
    s.writeReg a v = .error k ↔ 8 ≤ a.toNat ∧ k = .outOfBounds := by
  simp [State.writeReg, bind_eq_error, regIndex_eq_error, pure, Except.pure]

/-- The sequential successor, when it is an address. -/
theorem seqPc_eq_ok {len : Nat} {v : Byte} : s.seqPc len = .ok v ↔ v.toNat = s.pc.toNat + len := by
  have hv := v.isLt
  unfold State.seqPc
  split
  · next h =>
    rw [Except.ok.injEq, ← BitVec.toNat_inj, BitVec.toNat_ofNat, Nat.mod_eq_of_lt (by omega), eq_comm]
  · simp only [reduceCtorEq, false_iff]; omega

/-- When the sequential successor raises. -/
theorem seqPc_eq_error {len : Nat} {k : ErrorKind} :
    s.seqPc len = .error k ↔ 255 < s.pc.toNat + len ∧ k = .outOfBounds := by
  unfold State.seqPc
  split <;> simp [eq_comm] <;> omega

/-- Going on to the sequential successor. -/
theorem advance_eq_ok {len : Nat} :
    s.advance len = .ok t ↔ ∃ v : Byte, v.toNat = s.pc.toNat + len ∧ t = s.setPc v := by
  simp only [State.advance, bind_eq_ok, seqPc_eq_ok]
  constructor <;> rintro ⟨r, h, hv⟩ <;> exact ⟨r, h, by simpa [pure, Except.pure, eq_comm] using hv⟩

/-- When going on raises. -/
theorem advance_eq_error {len : Nat} {k : ErrorKind} :
    s.advance len = .error k ↔ 255 < s.pc.toNat + len ∧ k = .outOfBounds := by
  simp [State.advance, bind_eq_error, seqPc_eq_error, pure, Except.pure]

/-- Jumping to the address in a register. -/
theorem jumpTo_eq_ok {a : Byte} : s.jumpTo a = .ok t ↔ ∃ r : Fin 8, a.toNat = r.val ∧ t = s.setPc (s.reg r) := by
  simp only [State.jumpTo, bind_eq_ok, readReg_eq_ok]
  constructor
  · rintro ⟨v, ⟨r, h, rfl⟩, hv⟩
    exact ⟨r, h, by simpa [pure, Except.pure, eq_comm] using hv⟩
  · rintro ⟨r, h, rfl⟩
    exact ⟨_, ⟨r, h, rfl⟩, rfl⟩

/-- When jumping raises. -/
theorem jumpTo_eq_error {a : Byte} {k : ErrorKind} : s.jumpTo a = .error k ↔ 8 ≤ a.toNat ∧ k = .outOfBounds := by
  simp [State.jumpTo, bind_eq_error, readReg_eq_error, pure, Except.pure]

/-- Reading a cell. -/
theorem memRead_eq_ok {addr : Nat} {v : Byte} : s.memRead addr = .ok v ↔ addr < memSize ∧ s.byteAt addr = v := by
  unfold State.memRead State.byteAt
  split <;> simp [*]

/-- When reading a cell raises. -/
theorem memRead_eq_error {addr : Nat} {k : ErrorKind} :
    s.memRead addr = .error k ↔ memSize ≤ addr ∧ k = .outOfBounds := by
  unfold State.memRead
  split <;> simp [eq_comm] <;> omega

/-- Writing a cell. -/
theorem memWrite_eq_ok {addr : Nat} {v : Byte} :
    s.memWrite addr v = .ok t ↔ addr < memSize ∧ t = s.setMem (s.mem.writeByte addr v) := by
  unfold State.memWrite
  split <;> simp [*, eq_comm]

/-- When writing a cell raises. -/
theorem memWrite_eq_error {addr : Nat} {v : Byte} {k : ErrorKind} :
    s.memWrite addr v = .error k ↔ memSize ≤ addr ∧ k = .outOfBounds := by
  unfold State.memWrite
  split <;> simp [eq_comm] <;> omega

/-- Every byte is an address. -/
theorem toNat_lt_memSize (v : Byte) : v.toNat < memSize := v.isLt

/-- Everything a push can do when it succeeds. -/
theorem push_eq_ok {v : Byte} :
    s.push v = .ok t ↔ s.reg spReg ≠ 0 ∧
      t = (s.setReg spReg (s.reg spReg - 1)).setMem (s.mem.writeByte (s.reg spReg - 1).toNat v) := by
  unfold State.push
  split
  · simp [*]
  · next h => rw [memWrite_eq_ok]; exact and_congr (iff_of_true (toNat_lt_memSize _) h) Iff.rfl

/-- When a push raises. -/
theorem push_eq_error {v : Byte} {k : ErrorKind} : s.push v = .error k ↔ s.reg spReg = 0 ∧ k = .outOfBounds := by
  unfold State.push
  split
  · simp [*, eq_comm]
  · have := toNat_lt_memSize (s.reg spReg - 1)
    simp only [memWrite_eq_error, *, false_and, iff_false, not_and]; omega

/-- Everything a pop can do when it succeeds. -/
theorem pop_eq_ok {v : Byte} :
    s.pop = .ok (v, t) ↔ s.reg spReg ≠ 255 ∧ v = s.byteAt (s.reg spReg).toNat ∧
      t = s.setReg spReg (s.reg spReg + 1) := by
  unfold State.pop
  split
  · simp [*]
  · next h =>
    simp only [bind_eq_ok, memRead_eq_ok, pure, Except.pure, Except.ok.injEq, Prod.mk.injEq]
    constructor
    · rintro ⟨w, ⟨-, rfl⟩, rfl, rfl⟩
      exact ⟨h, rfl, rfl⟩
    · rintro ⟨-, rfl, rfl⟩
      exact ⟨_, ⟨toNat_lt_memSize _, rfl⟩, rfl, rfl⟩

/-- When a pop raises. -/
theorem pop_eq_error {k : ErrorKind} : s.pop = .error k ↔ s.reg spReg = 255 ∧ k = .outOfBounds := by
  unfold State.pop
  split
  · simp [*, eq_comm]
  · have := toNat_lt_memSize (s.reg spReg)
    simp only [bind_eq_error, memRead_eq_error, *, false_and, iff_false, not_or, not_and, pure, Except.pure]
    refine ⟨by omega, ?_⟩
    rintro ⟨v, -, h⟩
    cases h

/-- What a conditional jump is. -/
theorem branch_eq (s : State) (taken : Bool) (a : Byte) :
    s.branch taken a = if taken then s.jumpTo a else s.advance 2 := rfl

end Sys2Proof.Machine
end

