-- ==== Sys2Proof/Laws/Exec.lean ====
section
/-! SUPPORT. Everything `exec` can answer, said once over all instructions. -/

namespace Sys2Proof.Machine

open Sys2Proof

/-- What an instruction tries to do, before it is committed. -/
def attempt (i : Instr) (s : State) : Except ErrorKind State :=
  match i with
  | .ldi a b => do let t ← s.writeReg a (immediate b); t.advance 3
  | .prn a => do let v ← s.readReg a; (s.emit v).advance 2
  | .hlt => .ok (s.setStatus .halted)
  | .mul a b => s.aluInstr .mul a b
  | .cmp a b => s.aluInstr .cmp a b
  | .add a b => s.aluInstr .add a b
  | .call a => do let ret ← s.seqPc 2; let t ← s.push ret; t.jumpTo a
  | .jmp a => s.jumpTo a
  | .jeq a => s.branch s.fl.isEqual a
  | .jne a => s.branch (!s.fl.isEqual) a
  | .ret => do let (target, t) ← s.pop; return t.setPc target

/-- Executing an instruction is trying it and committing the answer. -/
theorem exec_eq_settle (i : Instr) (s : State) : exec i s = s.settle (attempt i s) := by cases i <;> rfl

/-- The only error an instruction meets is `OutOfBounds`. -/
theorem attempt_error {i : Instr} {s : State} {k} (h : attempt i s = .error k) : k = .outOfBounds := by
  have alu : ∀ op a b, op ≠ .unsupported → s.aluInstr op a b = .error k → k = .outOfBounds := by
    intro op a b hop h
    simp only [State.aluInstr, bind_eq_error, readReg_eq_error, advance_eq_error] at h
    rcases h with h | ⟨va, -, h | ⟨vb, -, h | ⟨u, -, h⟩⟩⟩
    · exact h.2
    · exact h.2
    · cases op with
      | add => exact (writeReg_eq_error.mp h).2
      | mul => exact (writeReg_eq_error.mp h).2
      | cmp => cases h
      | unsupported => exact absurd rfl hop
    · exact h.2
  cases i with
  | mul a b => exact alu _ a b (by decide) h
  | cmp a b => exact alu _ a b (by decide) h
  | add a b => exact alu _ a b (by decide) h
  | hlt => cases h
  | jeq a =>
    simp only [attempt, branch_eq] at h
    split at h
    · exact (jumpTo_eq_error.mp h).2
    · exact (advance_eq_error.mp h).2
  | jne a =>
    simp only [attempt, branch_eq] at h
    split at h
    · exact (jumpTo_eq_error.mp h).2
    · exact (advance_eq_error.mp h).2
  | ret =>
    simp only [attempt, bind_eq_error, pop_eq_error] at h
    rcases h with h | ⟨_, _, h⟩
    · exact h.2
    · cases h
  | jmp a => exact (jumpTo_eq_error.mp h).2
  | ldi a b =>
    simp only [attempt, bind_eq_error, writeReg_eq_error, advance_eq_error] at h
    rcases h with h | ⟨_, -, h⟩ <;> exact h.2
  | prn a =>
    simp only [attempt, bind_eq_error, readReg_eq_error, advance_eq_error] at h
    rcases h with h | ⟨_, -, h⟩ <;> exact h.2
  | call a =>
    simp only [attempt, bind_eq_error, seqPc_eq_error, push_eq_error, jumpTo_eq_error] at h
    rcases h with h | ⟨_, -, h | ⟨_, -, h⟩⟩ <;> exact h.2

/-- Everything the shape of MUL, CMP and ADD can do when it succeeds. -/
theorem aluInstr_ok {s t : State} {op : AluOp} {a b : Byte} (h : s.aluInstr op a b = .ok t) :
    ∃ r q : Fin 8, a.toNat = r.val ∧ b.toNat = q.val ∧ ∃ v : Byte, v.toNat = s.pc.toNat + 3 ∧
      ((∃ w, aluApply op (s.reg r) (s.reg q) = .register w ∧ t = (s.setReg r w).setPc v) ∨
       (∃ f, aluApply op (s.reg r) (s.reg q) = .flags f ∧ t = (s.setFl f).setPc v)) := by
  simp only [State.aluInstr, bind_eq_ok, readReg_eq_ok, advance_eq_ok] at h
  obtain ⟨_, ⟨r, hr, rfl⟩, _, ⟨q, hq, rfl⟩, u, hu, v, hv, rfl⟩ := h
  refine ⟨r, q, hr, hq, v, ?_⟩
  cases hres : aluApply op (s.reg r) (s.reg q) with
  | register w =>
    rw [hres, State.writeBack, writeReg_eq_ok] at hu
    obtain ⟨r', hr', rfl⟩ := hu
    have : r' = r := Fin.ext (by omega)
    subst this
    exact ⟨hv, .inl ⟨w, rfl, rfl⟩⟩
  | flags f => rw [hres] at hu; cases hu; exact ⟨hv, .inr ⟨f, rfl, rfl⟩⟩
  | error k => rw [hres] at hu; cases hu

/-- Every state an instruction that completes can leave. -/
def Completed (i : Instr) (s t : State) : Prop :=
  match i with
  | .ldi a b => ∃ r : Fin 8, a.toNat = r.val ∧ ∃ v : Byte, v.toNat = s.pc.toNat + 3 ∧ t = (s.setReg r b).setPc v
  | .prn a => ∃ r : Fin 8, a.toNat = r.val ∧ ∃ v : Byte, v.toNat = s.pc.toNat + 2 ∧ t = (s.emit (s.reg r)).setPc v
  | .hlt => t = s.setStatus .halted
  | .mul a b => ∃ r q : Fin 8, a.toNat = r.val ∧ b.toNat = q.val ∧ ∃ v : Byte, v.toNat = s.pc.toNat + 3 ∧
    t = (s.setReg r (Byte.ofNatMod ((s.reg r).toNat * (s.reg q).toNat))).setPc v
  | .add a b => ∃ r q : Fin 8, a.toNat = r.val ∧ b.toNat = q.val ∧ ∃ v : Byte, v.toNat = s.pc.toNat + 3 ∧
    t = (s.setReg r (Byte.ofNatMod ((s.reg r).toNat + (s.reg q).toNat))).setPc v
  | .cmp a b => ∃ r q : Fin 8, a.toNat = r.val ∧ b.toNat = q.val ∧ ∃ v : Byte, v.toNat = s.pc.toNat + 3 ∧
    t = (s.setFl (compareFlag (s.reg r) (s.reg q))).setPc v
  | .call a => ∃ r : Fin 8, a.toNat = r.val ∧ ∃ v : Byte, v.toNat = s.pc.toNat + 2 ∧ s.reg spReg ≠ 0 ∧
    ∃ u, u = (s.setReg spReg (s.reg spReg - 1)).setMem (s.mem.writeByte (s.reg spReg - 1).toNat v) ∧
    t = u.setPc (u.reg r)
  | .jmp a => ∃ r : Fin 8, a.toNat = r.val ∧ t = s.setPc (s.reg r)
  | .jeq a => (s.fl = .equal ∧ ∃ r : Fin 8, a.toNat = r.val ∧ t = s.setPc (s.reg r)) ∨
    (s.fl ≠ .equal ∧ ∃ v : Byte, v.toNat = s.pc.toNat + 2 ∧ t = s.setPc v)
  | .jne a => (s.fl ≠ .equal ∧ ∃ r : Fin 8, a.toNat = r.val ∧ t = s.setPc (s.reg r)) ∨
    (s.fl = .equal ∧ ∃ v : Byte, v.toNat = s.pc.toNat + 2 ∧ t = s.setPc v)
  | .ret => s.reg spReg ≠ 255 ∧ t = (s.setReg spReg (s.reg spReg + 1)).setPc (s.byteAt (s.reg spReg).toNat)

/-- An instruction that succeeds completes as its rule says. -/
theorem attempt_ok {i : Instr} {s t : State} (h : attempt i s = .ok t) : Completed i s t := by
  cases i with
  | ldi a b =>
    simp only [attempt, bind_eq_ok, writeReg_eq_ok, advance_eq_ok] at h
    obtain ⟨_, ⟨r, hr, rfl⟩, v, hv, rfl⟩ := h
    exact ⟨r, hr, v, hv, rfl⟩
  | prn a =>
    simp only [attempt, bind_eq_ok, readReg_eq_ok, advance_eq_ok] at h
    obtain ⟨_, ⟨r, hr, rfl⟩, v, hv, rfl⟩ := h
    exact ⟨r, hr, v, hv, rfl⟩
  | hlt => cases h; rfl
  | mul a b =>
    obtain ⟨r, q, hr, hq, v, hv, ⟨w, hw, rfl⟩ | ⟨w, hw, rfl⟩⟩ := aluInstr_ok h
    · cases hw; exact ⟨r, q, hr, hq, v, hv, rfl⟩
    · cases hw
  | add a b =>
    obtain ⟨r, q, hr, hq, v, hv, ⟨w, hw, rfl⟩ | ⟨w, hw, rfl⟩⟩ := aluInstr_ok h
    · cases hw; exact ⟨r, q, hr, hq, v, hv, rfl⟩
    · cases hw
  | cmp a b =>
    obtain ⟨r, q, hr, hq, v, hv, ⟨w, hw, rfl⟩ | ⟨w, hw, rfl⟩⟩ := aluInstr_ok h
    · cases hw
    · cases hw; exact ⟨r, q, hr, hq, v, hv, rfl⟩
  | call a =>
    simp only [attempt, bind_eq_ok, seqPc_eq_ok, push_eq_ok, jumpTo_eq_ok] at h
    obtain ⟨v, hv, _, ⟨h0, rfl⟩, r, hr, rfl⟩ := h
    exact ⟨r, hr, v, hv, h0, _, rfl, rfl⟩
  | jmp a => exact jumpTo_eq_ok.mp h
  | jeq a =>
    simp only [attempt, State.branch] at h
    cases hf : s.fl <;> simp only [hf, Flag.isEqual, if_true, Bool.false_eq_true, if_false] at h
    case equal => exact .inl ⟨hf, jumpTo_eq_ok.mp h⟩
    all_goals exact .inr ⟨by simp [hf], advance_eq_ok.mp h⟩
  | jne a =>
    simp only [attempt, State.branch] at h
    cases hf : s.fl <;>
      simp only [hf, Flag.isEqual, Bool.not_true, Bool.not_false, if_true, Bool.false_eq_true, if_false] at h
    case equal => exact .inr ⟨hf, advance_eq_ok.mp h⟩
    all_goals exact .inl ⟨by simp [hf], jumpTo_eq_ok.mp h⟩
  | ret =>
    simp only [attempt, bind_eq_ok] at h
    obtain ⟨⟨w, u⟩, hp, h⟩ := h
    obtain ⟨h255, rfl, rfl⟩ := pop_eq_ok.mp hp
    cases h
    exact ⟨h255, rfl⟩

/-- EVERYTHING AN INSTRUCTION CAN DO: it raises `OutOfBounds`, or it completes. Every claim over all instructions starts
here. -/
theorem exec_next_cases {i : Instr} {s t : State} (h : exec i s = .next t) : t = s.raise .outOfBounds ∨ Completed i s t := by
  obtain h2 | ⟨k, h2, rfl⟩ := settle_eq_next.mp ((exec_eq_settle i s).symm.trans h)
  · exact .inr (attempt_ok h2)
  · rw [attempt_error h2]; exact .inl rfl

end Sys2Proof.Machine
end

