-- ==== Sys2Proof/Laws/Fetch.lean ====
section
/-! SUPPORT. The fetch unit and the fetch followed by the decoder: everything they can answer. -/

namespace Sys2Proof.Machine

open Sys2Proof

variable {s : State}

/-- The three bytes at `pc`. -/
def State.fetched (s : State) : List Byte := [s.byteAt s.pc.toNat, s.byteAt (s.pc.toNat + 1), s.byteAt (s.pc.toNat + 2)]

/-- What a fetch gives. -/
theorem fetch_eq_ok {bs : List Byte} : s.fetch = .ok bs ↔ s.pc.toNat ≤ 253 ∧ bs = s.fetched := by
  simp only [State.fetch, bind_eq_ok, memRead_eq_ok, pure, Except.pure, Except.ok.injEq, State.fetched,
    memSize]
  constructor
  · rintro ⟨_, ⟨-, rfl⟩, _, ⟨-, rfl⟩, _, ⟨h, rfl⟩, rfl⟩
    exact ⟨by omega, rfl⟩
  · rintro ⟨h, rfl⟩
    exact ⟨_, ⟨by omega, rfl⟩, _, ⟨by omega, rfl⟩, _, ⟨by omega, rfl⟩, rfl⟩

/-- When a fetch raises. -/
theorem fetch_eq_error {k : ErrorKind} : s.fetch = .error k ↔ 253 < s.pc.toNat ∧ k = .outOfBounds := by
  have := s.pc.isLt
  simp only [State.fetch, bind_eq_error, memRead_eq_error, memRead_eq_ok, pure, Except.pure, reduceCtorEq, and_false,
    exists_false, or_false, memSize]
  constructor
  · rintro (⟨h, rfl⟩ | ⟨_, -, ⟨h, rfl⟩ | ⟨_, -, h, rfl⟩⟩) <;> exact ⟨by omega, rfl⟩
  · rintro ⟨h, rfl⟩
    by_cases h254 : s.pc.toNat = 254
    · exact .inr ⟨_, ⟨by omega, rfl⟩, .inr ⟨_, ⟨by omega, rfl⟩, by omega, rfl⟩⟩
    · exact .inr ⟨_, ⟨by omega, rfl⟩, .inl ⟨by omega, rfl⟩⟩

/-- The instruction a step runs. -/
theorem fetchDecode_eq_ok {i : Instr} :
    s.fetchDecode = .ok i ↔ s.pc.toNat ≤ 253 ∧ ∃ rest, decode s.cfg s.fetched = .ok (i, rest) := by
  simp only [State.fetchDecode, bind_eq_ok, fetch_eq_ok]
  constructor
  · rintro ⟨_, ⟨h, rfl⟩, hd⟩
    split at hd
    · next rest heq => cases hd; exact ⟨h, rest, heq⟩
    · cases hd
  · rintro ⟨h, rest, hd⟩
    exact ⟨_, ⟨h, rfl⟩, by rw [hd]⟩

/-- When fetching and decoding raise. -/
theorem fetchDecode_eq_error {k : ErrorKind} :
    s.fetchDecode = .error k ↔ (253 < s.pc.toNat ∧ k = .outOfBounds) ∨
      (s.pc.toNat ≤ 253 ∧ ∃ r, decode s.cfg s.fetched = .error r ∧ k = rejectKind r) := by
  simp only [State.fetchDecode, bind_eq_error, fetch_eq_error, fetch_eq_ok]
  refine or_congr Iff.rfl ⟨?_, ?_⟩
  · rintro ⟨_, ⟨h, rfl⟩, hd⟩
    split at hd
    · cases hd
    · next r heq => cases hd; exact ⟨h, r, heq, rfl⟩
  · rintro ⟨h, r, hd, rfl⟩
    exact ⟨_, ⟨h, rfl⟩, by rw [hd]⟩

/-- Whether the machine runs, as a fact about STATUS. -/
theorem isRunning_iff : s.isRunning = true ↔ s.status = .running := by
  unfold State.isRunning
  split <;> simp [*]

end Sys2Proof.Machine
end

