-- ==== Sys2Proof/Laws/Memory.lean ====
section
/-! SUPPORT. The memory list: reading after writing, the canonical form kept, equal reads mean equal lists. -/

namespace Sys2Proof.Machine

open Sys2Proof

namespace Memory

/-- Nothing is listed at an address below every listed one. -/
theorem readByte_of_lt {m : Memory} {a : Nat} (h : ∀ c ∈ m, a < c.1) : readByte m a = unlisted := by
  induction m with
  | nil => rfl
  | cons c m ih =>
    have hc : c.1 ≠ a := by have := h c (by simp); omega
    simp only [readByte, hc, if_false]
    exact ih fun d hd => h d (by simp [hd])

/-- A cell put in front reads as its value, below a list that starts higher. -/
theorem readByte_consCell {m : Memory} {a : Nat} (v : Byte) (h : ∀ c ∈ m, a < c.1) (x : Nat) :
    readByte (consCell a v m) x = if a = x then v else readByte m x := by
  unfold consCell
  by_cases hx : a = x
  · subst hx; split
    · next hv => simp [readByte_of_lt h, hv]
    · simp [readByte]
  · split <;> simp [readByte, hx]

/-- The tail of a canonical memory is canonical. -/
theorem wf_tail {c : Host.Cell} {m : Memory} (h : wf (c :: m)) : wf m :=
  ⟨h.1.of_cons, fun d hd => h.2 d (by simp [hd])⟩

/-- Every cell after the first of a canonical memory has a higher address. -/
theorem lt_of_wf {c : Host.Cell} {m : Memory} (h : wf (c :: m)) : ∀ d ∈ m, c.1 < d.1 :=
  (List.pairwise_cons.mp h.1).1

/-- Reading after writing: the value written, or what was there. -/
theorem readByte_writeByte {m : Memory} (h : wf m) (a : Nat) (v : Byte) (x : Nat) :
    readByte (writeByte m a v) x = if a = x then v else readByte m x := by
  induction m with
  | nil => exact readByte_consCell v (by simp) x
  | cons c m ih =>
    have hlt := lt_of_wf h
    simp only [writeByte]
    split
    · next hac =>
      refine readByte_consCell v (fun d hd => ?_) x
      rcases List.mem_cons.mp hd with rfl | hd
      · exact hac
      · have := hlt d hd; omega
    · split
      · next hac =>
        rw [readByte_consCell v (fun d hd => hac ▸ hlt d hd)]
        by_cases hx : a = x
        · simp [hx]
        · simp [readByte, hx, ← hac]
      · next hac =>
        simp only [readByte, ih (wf_tail h)]
        by_cases hx : c.1 = x
        · have : a ≠ x := by omega
          simp [hx, this]
        · simp [hx]

/-- The addresses after a write: the old ones and the one written. -/
theorem mem_writeByte {m : Memory} {a : Nat} {v : Byte} {d : Host.Cell} (h : d ∈ writeByte m a v) :
    d ∈ m ∨ (d = (a, v) ∧ v ≠ unlisted) := by
  have cons {m : Memory} (h : d ∈ consCell a v m) : d ∈ m ∨ (d = (a, v) ∧ v ≠ unlisted) := by
    unfold consCell at h
    split at h
    · exact .inl h
    · rcases List.mem_cons.mp h with h | h
      · exact .inr ⟨h, ‹_›⟩
      · exact .inl h
  induction m with
  | nil => exact cons h
  | cons c m ih =>
    simp only [writeByte] at h
    split at h
    · exact cons h
    · split at h
      · exact (cons h).imp_left (List.mem_cons_of_mem c)
      · rcases List.mem_cons.mp h with h | h
        · exact .inl (by simp [h])
        · exact (ih h).imp_left (List.mem_cons_of_mem c)

/-- Putting a cell in front of a list that starts higher keeps addresses rising. -/
theorem pairwise_consCell {m : Memory} {a : Nat} (v : Byte) (h : ∀ c ∈ m, a < c.1)
    (hm : m.Pairwise fun c d => c.1 < d.1) : (consCell a v m).Pairwise fun c d => c.1 < d.1 := by
  unfold consCell
  split
  · exact hm
  · exact List.pairwise_cons.mpr ⟨h, hm⟩

/-- A write keeps addresses rising. -/
theorem pairwise_writeByte {m : Memory} (hm : m.Pairwise fun c d => c.1 < d.1) (a : Nat) (v : Byte) :
    (writeByte m a v).Pairwise fun c d => c.1 < d.1 := by
  induction m with
  | nil => exact pairwise_consCell v (by simp) .nil
  | cons c m ih =>
    obtain ⟨hlt, hm'⟩ := List.pairwise_cons.mp hm
    simp only [writeByte]
    split
    · next hac =>
      refine pairwise_consCell v (fun d hd => ?_) hm
      rcases List.mem_cons.mp hd with rfl | hd
      · exact hac
      · have := hlt d hd; omega
    · split
      · next hac => exact pairwise_consCell v (fun d hd => hac ▸ hlt d hd) hm'
      · next hlt' hac =>
        refine List.pairwise_cons.mpr ⟨fun d hd => ?_, ih hm'⟩
        rcases mem_writeByte hd with hd | ⟨rfl, -⟩
        · exact hlt d hd
        · simp only; omega

/-- A write inside the address space keeps the canonical form. -/
theorem wf_writeByte {m : Memory} (h : wf m) {a : Nat} (ha : a < memSize) (v : Byte) : wf (writeByte m a v) := by
  refine ⟨pairwise_writeByte h.1 a v, fun d hd => ?_⟩
  rcases mem_writeByte hd with hd | ⟨rfl, hv⟩
  · exact h.2 d hd
  · exact ⟨ha, hv⟩

/-- Writing a row of bytes inside the address space keeps the canonical form. -/
theorem wf_writeBytes {m : Memory} (h : wf m) {a : Nat} {vs : List Byte} (ha : a + vs.length ≤ memSize) :
    wf (writeBytes m a vs) := by
  induction vs generalizing m a with
  | nil => exact h
  | cons v vs ih =>
    simp only [List.length_cons] at ha
    exact ih (wf_writeByte h (by omega) v) (by omega)

/-- Reading after writing a row of bytes. -/
theorem readByte_writeBytes {m : Memory} (h : wf m) {a : Nat} {vs : List Byte} (ha : a + vs.length ≤ memSize) (x : Nat) :
    readByte (writeBytes m a vs) x = if a ≤ x then vs[x - a]?.getD (readByte m x) else readByte m x := by
  induction vs generalizing m a with
  | nil => simp [writeBytes]
  | cons v vs ih =>
    simp only [List.length_cons] at ha
    rw [writeBytes, ih (wf_writeByte h (by omega) v) (by omega), readByte_writeByte h]
    by_cases hx : a + 1 ≤ x
    · have e : x - a = (x - (a + 1)) + 1 := by omega
      have n : a ≠ x := by omega
      have l : a ≤ x := by omega
      simp [hx, e, n, l]
    · by_cases hax : a = x
      · subst hax; simp
      · have : ¬ a ≤ x := by omega
        simp [hx, hax, this]

/-- A canonical memory lists its first cell, so it reads as something there. -/
theorem readByte_head (c : Host.Cell) (m : Memory) : readByte (c :: m) c.1 = c.2 := by
  simp [readByte]

/-- Two canonical memories that read alike are the same list. -/
theorem eq_of_readByte_eq {m n : Memory} (hm : wf m) (hn : wf n) (h : ∀ a, readByte m a = readByte n a) : m = n := by
  induction m generalizing n with
  | nil =>
    cases n with
    | nil => rfl
    | cons d n => exact absurd ((readByte_head d n).symm.trans (h d.1).symm) (hn.2 d (by simp)).2
  | cons c m ih =>
    cases n with
    | nil => exact absurd ((readByte_head c m).symm.trans (h c.1)) (hm.2 c (by simp)).2
    | cons d n =>
      have hc := lt_of_wf hm
      have hd := lt_of_wf hn
      have addr : c.1 = d.1 := by
        rcases Nat.lt_trichotomy c.1 d.1 with hlt | heq | hgt
        · have : readByte (d :: n) c.1 = unlisted := readByte_of_lt fun e he => by
            rcases List.mem_cons.mp he with rfl | he
            · exact hlt
            · exact hlt.trans (hd e he)
          exact absurd ((readByte_head c m).symm.trans ((h c.1).trans this)) (hm.2 c (by simp)).2
        · exact heq
        · have : readByte (c :: m) d.1 = unlisted := readByte_of_lt fun e he => by
            rcases List.mem_cons.mp he with rfl | he
            · exact hgt
            · exact hgt.trans (hc e he)
          exact absurd ((readByte_head d n).symm.trans ((h d.1).symm.trans this)) (hn.2 d (by simp)).2
      have val : c.2 = d.2 := by
        have := h c.1
        rwa [readByte_head, addr, readByte_head] at this
      have tails : m = n := ih (wf_tail hm) (wf_tail hn) fun a => by
        by_cases ha : c.1 = a
        · rw [readByte_of_lt fun e he => ha ▸ hc e he, readByte_of_lt fun e he => ha ▸ addr ▸ hd e he]
        · have := h a
          simpa [readByte, ha, show ¬ d.1 = a from addr ▸ ha] using this
      rw [tails, Prod.ext addr val]

end Memory

end Sys2Proof.Machine
end

