-- ==== Sys2Proof/Laws/PerInstr.lean ====
section
/-! SUPPORT. Facts about every instruction as syntax, one lemma per constructor: an encoding starts with the opcode byte and
is as long as the format says (30_encoding.md R45, R46). -/

namespace Sys2Proof.Laws.EncodedLength

open Sys2Proof

/-- The encoding of `i` starts with its opcode byte and has the length its descriptor gives. -/
def Statement (i : Instr) : Prop :=
  ∀ c : Config, (encode c i).head? = some (c.opcodes.byte i.mnemonic) ∧ (encode c i).length = i.length

theorem ldi (a b : Byte) : Statement (.ldi a b) := fun _ => ⟨rfl, rfl⟩
theorem prn (a : Byte) : Statement (.prn a) := fun _ => ⟨rfl, rfl⟩
theorem hlt : Statement .hlt := fun _ => ⟨rfl, rfl⟩
theorem mul (a b : Byte) : Statement (.mul a b) := fun _ => ⟨rfl, rfl⟩
theorem cmp (a b : Byte) : Statement (.cmp a b) := fun _ => ⟨rfl, rfl⟩
theorem call (a : Byte) : Statement (.call a) := fun _ => ⟨rfl, rfl⟩
theorem jmp (a : Byte) : Statement (.jmp a) := fun _ => ⟨rfl, rfl⟩
theorem jeq (a : Byte) : Statement (.jeq a) := fun _ => ⟨rfl, rfl⟩
theorem jne (a : Byte) : Statement (.jne a) := fun _ => ⟨rfl, rfl⟩
theorem add (a b : Byte) : Statement (.add a b) := fun _ => ⟨rfl, rfl⟩
theorem ret : Statement .ret := fun _ => ⟨rfl, rfl⟩

end Sys2Proof.Laws.EncodedLength
end

