-- ==== Sys2Proof/Laws/Session.lean ====
section
/-! SUPPORT. That a step and a run always answer a state, everything each operation of the host can do, and the sink's text. -/

namespace Sys2Proof.Machine

open Sys2Proof

variable {h : Session} {s t : State} {bytes : List Byte}

/-- A step answers a next state. -/
theorem step_total (s : State) : ∃ t, step s = .next t := by
  unfold step
  split
  · split
    · rw [exec_eq_settle]; exact settle_next ..
    · exact settle_next ..
  · exact settle_next ..

/-- A run of any length answers a next state. -/
theorem run_total (n : Nat) (s : State) : ∃ t, State.run n s = .next t := by
  induction n generalizing s with
  | zero => exact ⟨_, rfl⟩
  | succ n ih =>
    unfold State.run
    split
    · obtain ⟨u, hu⟩ := step_total s
      rw [hu]
      exact ih u
    · exact ⟨_, rfl⟩

/-- The text of one more value: its numeral and the separator. -/
@[simp] theorem sinkText_append_one (sep : List Char) (o : List Byte) (v : Byte) :
    sinkText sep (o ++ [v]) = sinkText sep o ++ (decimalText v ++ sep) := by
  simp [sinkText]

/-- Nothing printed, nothing shown. -/
@[simp] theorem sinkText_nil (sep : List Char) : sinkText sep [] = [] := rfl

/-- A load that is done. -/
theorem load_eq_next :
    s.load bytes = .next t ↔ bytes.length ≤ memSize ∧ t = s.setMem (s.mem.writeBytes loadBase bytes) := by
  unfold State.load
  split <;> simp [eq_comm] <;> omega

/-- A load that is too large. -/
theorem load_eq_fault {f : Fault} : s.load bytes = .fault f ↔ memSize < bytes.length ∧ f = .loadTooLarge := by
  unfold State.load
  split <;> simp [*, eq_comm]

/-- What a reset serves. -/
theorem serve_reset (h : Session) : h.serve .reset = (Session.start h.machine.cfg, .nothing) := rfl

/-- What a step serves. -/
theorem serve_step (ht : step h.machine = .next t) : h.serve .step = (⟨t, false⟩, .status t.status) := by
  simp only [Session.serve, ht, Session.answer]

/-- What a run serves. -/
theorem serve_run {n : Nat} (ht : State.run n h.machine = .next t) :
    h.serve (.run n) = (⟨t, h.unused && n == 0⟩, .status t.status) := by
  simp only [Session.serve, ht, Session.answer]

/-- What a load serves on an unused machine in its reset state: it is done, or it is too large and nothing changes. -/
theorem serve_load_of_unused (hu : h.unused = true) (hr : h.machine = h.machine.resetAgain) :
    (bytes.length ≤ memSize ∧
      h.serve (.load bytes) = (⟨h.machine.setMem (h.machine.mem.writeBytes loadBase bytes), false⟩, .loaded)) ∨
    (memSize < bytes.length ∧ h.serve (.load bytes) = (h, .failed .loadTooLarge)) := by
  have e : h.load bytes = h.machine.load bytes := if_pos ⟨hu, hr⟩
  by_cases hb : bytes.length ≤ memSize
  · refine .inl ⟨hb, ?_⟩
    simp only [Session.serve, e, load_eq_next.mpr ⟨hb, rfl⟩, Session.answer]
  · have hb : memSize < bytes.length := by omega
    refine .inr ⟨hb, ?_⟩
    simp only [Session.serve, e, load_eq_fault.mpr ⟨hb, rfl⟩, Session.answer]

end Sys2Proof.Machine
end

