-- ==== Sys2Proof/Tests/Slice0.lean ====
section
/-! SUPPORT. Tests on fixed values, expected results from spec/ (30_encoding.md section 3 and R58; the vectors V-... of
95_test_vectors.md), and for each obligation with hypotheses a witness that meets them. -/

namespace Sys2Proof.Tests

open Sys2Proof Sys2Proof.Machine

/-! ### Well-formedness refuses what is ill-formed -/

/-- Two required instructions on one byte. -/
theorem test_wf_refuses_shared_byte :
    ¬ Config.wf { Config.default with opcodes := { OpcodeMap.default with jne := 0x55 } } := by decide

/-- A shared byte of an instruction that is not implemented is no clash; it is one once the instruction is there. -/
theorem test_wf_counts_implemented_only :
    Config.wf { Config.default with opcodes := { OpcodeMap.default with add := 0x82 } } ∧
    ¬ Config.wf { Config.withOptions with opcodes := { OpcodeMap.default with add := 0x82 } } := by decide

theorem test_wf_refuses_absent_add : ¬ Instr.wf Config.default (.add 0 1) := by decide
theorem test_wf_refuses_absent_ret : ¬ Instr.wf Config.default .ret := by decide
theorem test_wf_accepts_any_operand : Instr.wf Config.default (.mul 200 255) := by decide

/-- Out of order, an address past 255, and a listed cell that reads 0: no memory in canonical form. -/
theorem test_memory_wf_refuses :
    ¬ Memory.wf [(5, 1), (4, 1)] ∧ ¬ Memory.wf [(256, 1)] ∧ ¬ Memory.wf [(3, 0)] ∧ Memory.wf [(0, 1), (255, 2)] := by
  decide

/-! ### Decoding: words written out bit by bit from the table of 30_encoding.md R49 -/

theorem test_decode_ldi : decode Config.default [0b10000010, 0b00000000, 0b00001000] = .ok (.ldi 0 8, []) := rfl
theorem test_decode_prn : decode Config.default [0b01000111, 0b00000111, 0b11111111] = .ok (.prn 7, [255]) := rfl
theorem test_decode_hlt : decode Config.default [0b00000001] = .ok (.hlt, []) := rfl
theorem test_decode_mul : decode Config.default [0b10100010, 0b00000000, 0b00000001] = .ok (.mul 0 1, []) := rfl
theorem test_decode_cmp : decode Config.default [0b10100111, 0b00000000, 0b00000010] = .ok (.cmp 0 2, []) := rfl
theorem test_decode_call : decode Config.default [0b01010000, 0b00000001] = .ok (.call 1, []) := rfl
theorem test_decode_jmp : decode Config.default [0b01010100, 0b00000011] = .ok (.jmp 3, []) := rfl
theorem test_decode_jeq : decode Config.default [0b01010101, 0b11001000] = .ok (.jeq 200, []) := rfl
theorem test_decode_jne : decode Config.default [0b01010110, 0b00000011] = .ok (.jne 3, []) := rfl
theorem test_decode_add : decode Config.withOptions [0b10100000, 0b00000000, 0b00000001] = .ok (.add 0 1, []) := rfl
theorem test_decode_ret : decode Config.withOptions [0b00010001, 0b00000000] = .ok (.ret, [0]) := rfl

/-- ADD and RET are unknown by default (30_encoding.md R51), as are 0 and the LS-8's push (R53). -/
theorem test_decode_unknown :
    decode Config.default [0xA0, 0, 1] = .error (.unknownInstruction 0xA0) ∧
    decode Config.default [0x11, 0, 0] = .error (.unknownInstruction 0x11) ∧
    decode Config.withOptions [0x00, 0, 0] = .error (.unknownInstruction 0x00) ∧
    decode Config.withOptions [0x45, 0, 0] = .error (.unknownInstruction 0x45) := ⟨rfl, rfl, rfl, rfl⟩

theorem test_decode_truncated :
    decode Config.default [0x82, 0] = .error .truncated ∧ decode Config.default [] = .error .truncated := ⟨rfl, rfl⟩

/-- "Under the defaults that is 247 of the 256 byte values" (30_encoding.md R53). -/
theorem test_decode_nine_known :
    ∀ b : Byte, (Config.default.lookup b).isSome = true ↔
      b ∈ [(0x01 : Byte), 0x47, 0x50, 0x54, 0x55, 0x56, 0x82, 0xA2, 0xA7] := by decide

/-- Another opcode map gives another machine (30_encoding.md R52). -/
theorem test_decode_other_map :
    decode { Config.default with opcodes := { OpcodeMap.default with hlt := 0 } } [0] = .ok (.hlt, []) := rfl

/-- A table word: bit 0 is the least significant bit of the first byte. -/
theorem test_table_word :
    decodeTableWord 24 0x0800_82 = some (.ldi 0 8) ∧ decodeTableWord 8 0xFFFF11 = some .ret ∧
    decodeTableWord 8 0xA0 = some (.add 0 0) ∧ decodeTableWord 8 0 = none := ⟨rfl, rfl, rfl, rfl⟩

/-- The document's program is twelve bytes (30_encoding.md R58). -/
theorem test_encode_program :
    encodeAll Config.default [.ldi 0 8, .ldi 1 9, .mul 0 1, .prn 0, .hlt] =
      [0x82, 0, 8, 0x82, 1, 9, 0xA2, 0, 1, 0x47, 0, 0x01] := by decide

/-! ### One step -/

/-- The reset machine with both optional instructions, some registers set, `pc` and `fl` set, and bytes placed at `pc`. -/
def machine (pc : Byte) (bytes : List Byte) (x : List (Fin 8 × Byte) := []) (f : Flag := .unset) : State :=
  let s := x.foldl (fun s v => s.setReg v.1 v.2) (State.resetWith Config.withOptions)
  ((s.setPc pc).setFl f).setMem (s.mem.writeBytes pc.toNat bytes)

/-- The same without the optional instructions. -/
def plainMachine (pc : Byte) (bytes : List Byte) : State := { machine pc bytes with cfg := Config.default }

/-- The state after one step, where there is one. -/
def after (s : State) : State := (Result.next? (step s)).getD s

/-- The state after an instruction, where there is one. -/
def afterExec (i : Instr) (s : State) : State := (Result.next? (exec i s)).getD s

/-- Whether a step entered an error and did nothing else. -/
abbrev onlyRaised (k : ErrorKind) (s : State) : Prop := after s = { s with status := .error k }

/-- V-L1 and V-L2. -/
theorem test_ldi :
    (after (machine 0 [0x82, 0, 8])).reg 0 = 8 ∧ (after (machine 0 [0x82, 0, 8])).pc = 3 ∧
    (after (machine 0 [0x82, 7, 16])).reg spReg = 16 := by decide

/-- V-L5, V-L6 and, just below it, V-L7. -/
theorem test_ldi_bounds :
    onlyRaised .outOfBounds (machine 0 [0x82, 8, 1]) ∧ onlyRaised .outOfBounds (machine 253 [0x82, 1, 5]) ∧
    (after (machine 250 [0x82, 1, 5])).pc = 253 := by decide

/-- V-P2, V-P3 and V-P5. -/
theorem test_prn :
    (after (machine 0 [0x47, 5] [(5, 255)])).out = [255] ∧ (after (machine 0 [0x47, 7])).out = [244] ∧
    (after (machine 253 [0x47, 0] [(0, 7)])).pc = 255 := by decide

/-- V-P4. -/
theorem test_prn_bounds : onlyRaised .outOfBounds (machine 0 [0x47, 8]) := by decide

/-- V-T1, V-T3 and V-T4. -/
theorem test_hlt :
    after (machine 5 [0x01]) = { machine 5 [0x01] with status := .halted } ∧
    (after (machine 253 [0x01, 7, 7])).status = .halted ∧ onlyRaised .outOfBounds (machine 254 [0x01]) := by decide

/-- V-A5, V-A10, V-A12, V-I1 and V-I2. -/
theorem test_mul :
    aluApply .mul 16 16 = .register 0 ∧ aluApply .mul 200 200 = .register 64 ∧ aluApply .mul 255 255 = .register 1 ∧
    (after (machine 0 [0xA2, 2, 2] [(2, 200)])).reg 2 = 64 ∧
    (after (machine 0 [0xA2, 7, 1] [(1, 2)])).reg spReg = 0xE8 := by decide

/-- V-I3, V-I4 and V-I8. -/
theorem test_mul_bounds :
    onlyRaised .outOfBounds (machine 0 [0xA2, 8, 0]) ∧ onlyRaised .outOfBounds (machine 0 [0xA2, 0, 255]) ∧
    onlyRaised .outOfBounds (machine 253 [0xA2, 0, 1] [(0, 3), (1, 4)]) := by decide

/-- V-A25 (unsigned), V-I5 and V-I6. -/
theorem test_cmp :
    aluApply .cmp 128 127 = .flags .greaterThan ∧ aluApply .cmp 1 2 = .flags .lessThan ∧
    (after (machine 10 [0xA7, 4, 5] [(4, 5), (5, 5)] .lessThan)).fl = .equal ∧
    (after (machine 10 [0xA7, 3, 3] [(3, 9)])).pc = 13 := by decide

/-- V-I7: the flags are kept. -/
theorem test_cmp_bounds : onlyRaised .outOfBounds (machine 10 [0xA7, 0, 9] [] .greaterThan) := by decide

/-- V-I9 and V-I11. -/
theorem test_add :
    (after (machine 0 [0xA0, 0, 1] [(0, 200), (1, 100)])).reg 0 = 44 ∧
    (after (machine 0 [0xA0, 6, 6] [(6, 130)])).reg 6 = 4 := by decide

/-- V-I10 and V-R4: absent without their parameters. -/
theorem test_absent_options :
    onlyRaised .unknownInstruction (plainMachine 0 [0xA0, 0, 1]) ∧
    onlyRaised .unknownInstruction (plainMachine 14 [0x11]) := by decide

/-- V-S1, V-S2 and V-S6. -/
theorem test_call :
    (let t := after (machine 6 [0x50, 1] [(1, 9)]); (t.byteAt 0xF3, t.reg spReg, t.pc) = (8, 0xF3, 9)) ∧
    (let t := after (machine 6 [0x50, 0] [(0, 6), (7, 1)]); (t.byteAt 0, t.reg spReg, t.pc) = (8, 0, 6)) ∧
    (let t := after (machine 253 [0x50, 2] [(2, 40), (7, 0x80)]);
      (t.byteAt 0x7F, t.reg spReg, t.pc) = (255, 0x7F, 40)) := by decide

/-- V-S3, V-S5, and V-S4: CALL R7 jumps to the decremented stack pointer. -/
theorem test_call_corners :
    onlyRaised .outOfBounds (machine 6 [0x50, 0] [(0, 3), (7, 0)]) ∧ onlyRaised .outOfBounds (machine 0 [0x50, 9]) ∧
    (let t := after (machine 0 [0x50, 7]); (t.byteAt 0xF3, t.reg spReg, t.pc) = (2, 0xF3, 0xF3)) := by decide

/-- V-J1, V-J3 with the step after it, and V-J4. -/
theorem test_jmp :
    (after (machine 18 [0x54, 3] [(3, 12)])).pc = 12 ∧
    (after (after (machine 3 [0x54, 0] [(0, 254)]))).status = .error .outOfBounds ∧
    onlyRaised .outOfBounds (machine 0 [0x54, 8]) := by decide

/-- V-J5 to V-J8. -/
theorem test_jeq :
    [Flag.equal, .lessThan, .greaterThan, .unset].map (fun f => (after (machine 18 [0x55, 3] [(3, 12)] f)).pc) =
      [12, 20, 20, 20] := by decide

/-- V-J13 and V-J15: the index is examined only if the jump is taken. -/
theorem test_jeq_index :
    (after (machine 0 [0x55, 200])).pc = 2 ∧ onlyRaised .outOfBounds (machine 0 [0x55, 200] [] .equal) := by decide

/-- V-J9 to V-J12. -/
theorem test_jne :
    [Flag.equal, .lessThan, .greaterThan, .unset].map (fun f => (after (machine 18 [0x56, 3] [(3, 12)] f)).pc) =
      [20, 12, 12, 12] := by decide

/-- V-J14. -/
theorem test_jne_index : onlyRaised .outOfBounds (machine 0 [0x56, 200]) := by decide

/-- The machine of V-R1: a byte on the stack. -/
def returning : State := { machine 14 [0x11] [(7, 0xF3)] with mem := [(14, 0x11), (0xF3, 8)] }

/-- V-R1. -/
theorem test_ret :
    (after returning).pc = 8 ∧ (after returning).reg spReg = 0xF4 ∧ (after returning).byteAt 0xF3 = 8 := by decide

/-- V-R2, and V-R5's first step: nothing was pushed. -/
theorem test_ret_corners :
    onlyRaised .outOfBounds (machine 3 [0x11] [(7, 255)]) ∧ (after (machine 0 [0x11])).pc = 0 ∧
    (after (machine 0 [0x11])).reg spReg = 0xF5 := by decide

/-- V-D2, V-D4, V-D5 and V-D8. -/
theorem test_fetch_decode :
    onlyRaised .unknownInstruction State.reset ∧ onlyRaised .outOfBounds (machine 254 [0xFF]) ∧
    onlyRaised .unknownInstruction (plainMachine 0 [0x45, 0]) ∧
    after { machine 0 [0x01] with status := .error .outOfBounds } =
      { machine 0 [0x01] with status := .error .outOfBounds } := by decide

/-- The word of every row of spec/opcode_table.json, placed after reset, is what the next step runs. -/
theorem test_table_words_run :
    (after (State.reset.withFetchWord 8 0x11)).pc = 0 ∧
    (after (State.reset.withFetchWord 8 0x11)).reg spReg = 0xF5 ∧
    (after (State.reset.withFetchWord 24 0xA0)).pc = 3 ∧ (after (State.reset.withFetchWord 8 0x01)).status = .halted := by
  decide

/-! ### The host -/

/-- V-H2 and V-H3: 256 bytes are accepted, 257 are not. -/
theorem test_load_size :
    (∃ t, State.reset.load (List.replicate 256 7) = .next t) ∧
    State.reset.load (List.replicate 257 7) = .fault .loadTooLarge := by
  unfold State.load
  exact ⟨⟨_, by rw [if_neg (by rw [List.length_replicate]; decide)]⟩,
    by rw [if_pos (by rw [List.length_replicate]; decide)]⟩

/-- V-H1: the document's program in memory, the rest 0. -/
theorem test_load_program :
    (Result.next? (State.reset.load [0x82, 0, 8, 0x82, 1, 9, 0xA2, 0, 1, 0x47, 0, 0x01])).map
      (fun t => [t.byteAt 0, t.byteAt 2, t.byteAt 11, t.byteAt 12, t.byteAt 255]) = some [0x82, 8, 1, 0, 0] := by decide

/-- V-H7 and V-T2. -/
theorem test_host_corners :
    (State.resetWith { Config.default with spInit := 0x80 }).reg spReg = 0x80 ∧
    (Session.serve ⟨{ machine 9 [] with status := .halted }, false⟩ .step) =
      (⟨{ machine 9 [] with status := .halted }, false⟩, .status .halted) := by decide

/-- The machine in which byte 0 is JMP: a step from reset leaves the reset state as it was. -/
def jumpingConfig : Config := { Config.default with opcodes := { OpcodeMap.default with jmp := 0 } }

/-- A load after such a step, and a second load after an empty one, are refused; after a reset a load is allowed again
(70_reset_and_hazards.md R118; U15 of 93_implementation_defined.md). -/
theorem test_load_only_before_first_step :
    step (State.resetWith jumpingConfig) = .next (State.resetWith jumpingConfig) ∧
    (((Session.start jumpingConfig).serveAll [.step]).serve (.load [1])).2 = .turnedDown .loadAfterReset ∧
    (((Session.start Config.default).serveAll [.load []]).serve (.load [1])).2 = .turnedDown .loadAfterReset ∧
    (((Session.start Config.default).serveAll [.load [0], .run 0]).serve (.load [1])).2 =
      .turnedDown .loadAfterReset ∧
    (((Session.start Config.default).serveAll [.load [1], .step, .reset]).serve (.load [1])).2 = .loaded :=
  ⟨rfl, by decide⟩

/-- The numbers of 70_reset_and_hazards.md R122, 10_state.md R20 and R22, 60_exceptions.md R100. -/
theorem test_renderings :
    sinkText [','] [7, 72] = ['7', ',', '7', '2', ','] ∧ decimalText 0 = ['0'] ∧ decimalText 72 = ['7', '2'] ∧ decimalText 255 = ['2', '5', '5'] ∧
    [Flag.unset, .equal, .greaterThan, .lessThan].map Flag.bits = [0b000, 0b001, 0b010, 0b100] ∧
    [Status.running, .halted, .error .outOfBounds].map Status.code = [0, 1, 2] ∧
    [ErrorKind.unknownInstruction, .unsupportedOperation, .outOfBounds, .loadTooLarge].map ErrorKind.code =
      [1, 2, 3, 4] := by decide

/-! ### Witnesses: for each obligation with hypotheses, inputs that meet them all, one for each clause at its boundary -/

/-- Every instruction of a machine with an injective map: the last operand values, and an optional instruction. -/
theorem witness_EncodedInstructionDecodesBack :
    Config.wf Config.withOptions ∧ Instr.wf Config.withOptions (.add 255 255) ∧ Config.wf Config.default ∧
    Instr.wf Config.default (.ldi 255 0) := by decide

theorem witness_DecodedBytesAreTheEncoding :
    decode Config.default [0x47, 255, 0x01] = .ok (.prn 255, [0x01]) := rfl

theorem witness_EncodedProgramDecodesInOrder :
    Config.wf Config.withOptions ∧ Instr.wf Config.withOptions .ret ∧
    (encodeAll Config.withOptions [.ldi 0 8, .ret]).drop ([Instr.ldi 0 8].map Instr.length).sum = [0x11] := by decide

/-- Two machines that differ just past a two-byte instruction; and, for RET, two that differ just past it and agree on the byte it
pops. -/
theorem witness_BytesAfterInstructionIgnored :
    let s := machine 253 [0x47, 0, 9]
    s.status = .running ∧ s.fetchDecode = .ok (.prn 0) ∧
    (∀ k, k < (Instr.prn 0).length → Memory.readByte [(253, 0x47)] (s.pc.toNat + k) = s.byteAt (s.pc.toNat + k)) ∧
    s.mem.wf ∧ Memory.wf [(253, 0x47)] ∧
    returning.status = .running ∧ returning.fetchDecode = .ok .ret ∧
    (∀ k, k < Instr.ret.length →
      Memory.readByte [(14, 0x11), (15, 7), (0xF3, 8)] (returning.pc.toNat + k) = returning.byteAt (returning.pc.toNat + k)) ∧
    returning.mem.wf ∧ Memory.wf [(14, 0x11), (15, 7), (0xF3, 8)] ∧
    Memory.readByte [(14, 0x11), (15, 7), (0xF3, 8)] (returning.reg spReg).toNat =
      returning.byteAt (returning.reg spReg).toNat :=
  ⟨rfl, rfl, by decide, by decide, by decide, rfl, rfl, by decide, by decide, by decide, by decide⟩

/-- From a stopped machine at an address that cannot be fetched, in a configuration without RET. -/
theorem witness_PlacedTableWordRunsNext :
    let s := { plainMachine 255 [9] with status := .halted }
    s.mem.wf ∧ decodeTableWord 8 0x11 = some .ret := ⟨by decide, rfl⟩

theorem witness_StepRunsDecodedInstruction :
    let s := machine 253 [0x01, 8, 8]
    s.status = .running ∧ s.pc.toNat ≤ 253 ∧
    decode s.cfg [s.byteAt s.pc.toNat, s.byteAt (s.pc.toNat + 1), s.byteAt (s.pc.toNat + 2)] = .ok (.hlt, [8, 8]) :=
  ⟨rfl, by decide, rfl⟩

theorem witness_FetchBoundRaises :
    (machine 254 [0x01]).status = .running ∧ 253 < (machine 254 [0x01]).pc.toNat ∧
    (machine 255 [0x01]).status = .running ∧ 253 < (machine 255 [0x01]).pc.toNat := by decide

theorem witness_UnknownOpcodeRaises :
    (machine 253 [0xFF]).status = .running ∧ (machine 253 [0xFF]).pc.toNat ≤ 253 ∧
    ∀ m, (machine 253 [0xFF]).cfg.implements m = true →
      (machine 253 [0xFF]).cfg.opcodes.byte m ≠ (machine 253 [0xFF]).byteAt (machine 253 [0xFF]).pc.toNat := by
  refine ⟨by decide, by decide, fun m => ?_⟩
  cases m <;> decide

/-- Both sides: an optional instruction's byte, and a required one's. -/
theorem witness_DefaultMapUnknownBytes :
    (plainMachine 253 [0xA0]).status = .running ∧ (plainMachine 253 [0xA0]).pc.toNat ≤ 253 ∧
    (plainMachine 253 [0xA0]).cfg = Config.default ∧ (plainMachine 0 [0x01]).cfg = Config.default ∧
    onlyRaised .unknownInstruction (plainMachine 253 [0xA0]) ∧ (after (plainMachine 0 [0x01])).status = .halted := by
  decide

theorem witness_StoppedStepChangesNothing :
    ({ machine 0 [] with status := .halted }).status ≠ .running ∧
    ({ machine 0 [] with status := .error .outOfBounds }).status ≠ .running := by decide

/-- A stopped machine, a HLT, an instruction that completes, one that raises, and a fetch that raises. -/
theorem witness_StepAnswersNewStatus :
    ({ machine 0 [] with status := .halted }).status ≠ .running ∧
    ((machine 253 [0x01]).status = .running ∧ (machine 253 [0x01]).fetchDecode = .ok .hlt) ∧
    ((machine 0 [0x82, 7, 1]).fetchDecode = .ok (.ldi 7 1) ∧ Instr.ldi 7 1 ≠ .hlt) ∧
    ((machine 0 [0x82, 8, 1]).fetchDecode = .ok (.ldi 8 1) ∧ Instr.ldi 8 1 ≠ .hlt) ∧
    (machine 254 [0x01]).fetchDecode = .error .outOfBounds :=
  ⟨by decide, ⟨rfl, rfl⟩, ⟨rfl, by decide⟩, ⟨rfl, by decide⟩, rfl⟩

/-- The last register at the last address with a successor, the last address from which a PRN can follow, and the first index
and the first address that raise. -/
theorem witness_LdiLoadsImmediate :
    ((7 : Byte).toNat = (7 : Fin 8).val ∧ (machine 252 []).pc.toNat + 3 ≤ 255) ∧
    (afterExec (.ldi 7 9) (machine 250 [])).pc.toNat ≤ 253 ∧ 7 < (8 : Byte).toNat ∧
    255 < (machine 253 []).pc.toNat + 3 := by decide

theorem witness_PrnEmitsRegister :
    (machine 253 []).pc.toNat ≤ 253 ∧ (7 : Byte).toNat = (7 : Fin 8).val ∧ 7 < (8 : Byte).toNat := by decide

/-- The product's clause, and the three orderings. -/
theorem witness_AluComputesExactly :
    ((0 : Byte).toNat = (0 : Fin 8).val ∧ (7 : Byte).toNat = (7 : Fin 8).val ∧ (machine 252 []).pc.toNat + 3 ≤ 255) ∧
    (127 : Byte).toNat < (128 : Byte).toNat ∧ (128 : Byte).toNat > (127 : Byte).toNat := by decide

theorem witness_UnsupportedOperationUnreachable :
    (7 : Byte).toNat < 8 ∧ (0 : Byte).toNat < 8 ∧
    exec (.mul 8 0) (machine 0 []) = .next (afterExec (.mul 8 0) (machine 0 [])) ∧
    (machine 0 []).status ≠ .error .unsupportedOperation := ⟨by decide, by decide, rfl, by decide⟩

/-- The clause that completes, and each of the three ways to raise; the same inputs meet MUL's, CMP's and ADD's. -/
theorem witness_MulMultipliesRegisters :
    ((0 : Byte).toNat = (0 : Fin 8).val ∧ (7 : Byte).toNat = (7 : Fin 8).val ∧ (machine 252 []).pc.toNat + 3 ≤ 255) ∧
    7 < (8 : Byte).toNat ∧ 255 < (machine 253 []).pc.toNat + 3 := by decide

/-- CMP: each ordering with its registers. -/
theorem witness_CmpSetsFlags :
    ((0 : Byte).toNat = (0 : Fin 8).val ∧ (7 : Byte).toNat = (7 : Fin 8).val ∧ (machine 252 []).pc.toNat + 3 ≤ 255) ∧
    ((machine 0 [] [(0, 0xF4)]).reg 0).toNat = ((machine 0 [] [(0, 0xF4)]).reg 7).toNat ∧
    ((machine 0 []).reg 0).toNat < ((machine 0 []).reg 7).toNat ∧
    ((machine 0 [] [(0, 0xF5)]).reg 7).toNat < ((machine 0 [] [(0, 0xF5)]).reg 0).toNat ∧
    7 < (8 : Byte).toNat ∧ 255 < (machine 253 []).pc.toNat + 3 := by decide

theorem witness_AddSumsRegisters :
    ((7 : Byte).toNat = (7 : Fin 8).val ∧ (machine 252 []).pc.toNat + 3 ≤ 255) ∧
    7 < (8 : Byte).toNat ∧ 255 < (machine 253 []).pc.toNat + 3 := by decide

/-- The stack pointer at 0 and at 1, and a CALL that changes a byte. -/
theorem witness_PushStoresBelowStackPointer :
    (machine 0 [] [(7, 0)]).mem.wf ∧ (machine 0 [] [(7, 0)]).reg spReg = 0 ∧ (machine 0 [] [(7, 1)]).reg spReg ≠ 0 ∧
    exec (.call 0) (machine 0 []) = .next (afterExec (.call 0) (machine 0 [])) ∧
    (afterExec (.call 0) (machine 0 [])).byteAt 0xF3 ≠ (machine 0 []).byteAt 0xF3 :=
  ⟨by decide, by decide, by decide, rfl, by decide⟩

theorem witness_PopReadsAtStackPointer :
    (machine 0 [] [(7, 255)]).reg spReg = 255 ∧ (machine 0 [] [(7, 254)]).reg spReg ≠ 255 := by decide

/-- Register 7 as the target at the last address that can be fetched, and both ways to raise. -/
theorem witness_CallPushesReturnAddress :
    (machine 253 [0x50, 7] [(7, 1)]).mem.wf ∧ (machine 253 [0x50, 7] [(7, 1)]).pc.toNat ≤ 253 ∧
    (7 : Byte).toNat = (7 : Fin 8).val ∧ (machine 253 [0x50, 7] [(7, 1)]).reg spReg ≠ 0 ∧ 7 < (8 : Byte).toNat ∧
    (machine 253 [0x50, 0] [(7, 0)]).reg spReg = 0 := by decide

theorem witness_JmpJumpsToRegister : (7 : Byte).toNat = (7 : Fin 8).val ∧ 7 < (8 : Byte).toNat := by decide

/-- Taken with a register, taken with no register, and not taken; the same inputs meet JNE's clauses the other way round. -/
theorem witness_JeqJumpsOnlyOnEqual :
    (machine 253 [] [] .equal).pc.toNat ≤ 253 ∧ (machine 253 [] [] .equal).fl = .equal ∧
    (7 : Byte).toNat = (7 : Fin 8).val ∧ 7 < (8 : Byte).toNat ∧ (machine 253 []).pc.toNat ≤ 253 ∧
    (machine 253 []).fl ≠ .equal := by decide

theorem witness_JneJumpsUnlessEqual :
    (machine 253 []).pc.toNat ≤ 253 ∧ (machine 253 []).fl ≠ .equal ∧ (7 : Byte).toNat = (7 : Fin 8).val ∧
    7 < (8 : Byte).toNat ∧ (machine 253 [] [] .equal).fl = .equal := by decide

theorem witness_RetPopsProgramCounter :
    (machine 0 [] [(7, 254)]).reg spReg ≠ 255 ∧ (machine 0 [] [(7, 255)]).reg spReg = 255 := by decide

/-- The CALL of V-S1 and, as the later state, the one right after it. -/
theorem witness_RetUndoesCall :
    let s := machine 6 [0x50, 1] [(1, 9)]
    let t := after s
    s.mem.wf ∧ s.pc.toNat ≤ 253 ∧ s.status = .running ∧ exec (.call 1) s = .next t ∧ t.status = .running ∧
    t.reg spReg = t.reg spReg ∧ t.byteAt (t.reg spReg).toNat = t.byteAt (t.reg spReg).toNat :=
  ⟨by decide, by decide, rfl, rfl, rfl, rfl, rfl⟩

/-- The CALL of P7: the pushed byte is the third byte of the fetch that follows. -/
theorem witness_PushedByteIsFetchedNext :
    let s := machine 6 [0x50, 0, 0x01, 0x82, 2, 0, 0x47, 2, 0x01] [(0, 9), (7, 12)]
    let t := after s
    s.mem.wf ∧ s.pc.toNat ≤ 253 ∧ s.status = .running ∧ exec (.call 0) s = .next t ∧ t.status = .running ∧
    t.fetch = .ok [0x82, 2, 8] ∧ t.pc.toNat + 2 = (t.reg spReg).toNat :=
  ⟨by decide, by decide, rfl, rfl, rfl, rfl, by decide⟩

theorem witness_NoSuccessorPastMemory :
    253 < (machine 254 []).pc.toNat ∧ (machine 254 []).fl ≠ .equal ∧ 253 < (machine 255 [] [] .equal).pc.toNat ∧
    (machine 255 [] [] .equal).fl = .equal := by decide

/-- V-J2. -/
theorem witness_JumpToItselfNeverEnds :
    let s := machine 0 [0x54, 0]
    s.status = .running ∧ s.fetchDecode = .ok (.jmp 0) ∧ (0 : Byte).toNat = (0 : Fin 8).val ∧ s.reg 0 = s.pc :=
  ⟨rfl, rfl, rfl, rfl⟩

theorem witness_RegisterIndexIsWholeByte :
    (7 : Byte).toNat = (7 : Fin 8).val ∧ 7 < (8 : Byte).toNat ∧ 7 < (255 : Byte).toNat := by decide

theorem witness_MemoryHoldsWhatWasWritten :
    (machine 255 [9]).mem.wf ∧ (machine 255 [9]).mem = [(255, 9)] ∧ (255 : Nat) ≤ 255 ∧ (255 : Nat) < 256 := by decide

/-- Two ways of writing the same cells. -/
theorem witness_EqualCellsEqualMemory :
    let m := (Memory.writeByte [] 255 1).writeByte 0 2
    let n := ((Memory.writeByte [] 0 2).writeByte 7 3).writeByte 255 1 |>.writeByte 7 0
    m.wf ∧ n.wf ∧ m = [(0, 2), (255, 1)] ∧ n = [(0, 2), (255, 1)] := by decide

/-- An instruction that raises, and one that completes. -/
theorem witness_PcFollowsDescriptor :
    (machine 0 []).status = .running ∧
    exec (.jmp 8) (machine 0 []) = .next (afterExec (.jmp 8) (machine 0 [])) ∧
    (afterExec (.jmp 8) (machine 0 [])).status = .error .outOfBounds ∧
    exec (.jmp 7) (machine 0 []) = .next (afterExec (.jmp 7) (machine 0 [])) ∧
    (afterExec (.jmp 7) (machine 0 [])).status = .running := ⟨rfl, rfl, rfl, rfl, rfl⟩

/-- A register, the flags, OUT, a byte of memory, and STATUS by HLT and by an error: each is changed by some instruction. -/
theorem witness_InstructionsWriteOnlyTheirState :
    let s := machine 0 []
    s.mem.wf ∧ (afterExec (.ldi 3 9) s).reg 3 ≠ s.reg 3 ∧ (afterExec (.cmp 0 7) s).fl ≠ s.fl ∧
    (afterExec (.prn 0) s).out ≠ s.out ∧ (afterExec (.call 0) s).byteAt 0xF3 ≠ s.byteAt 0xF3 ∧
    (afterExec .hlt s).status ≠ s.status ∧ (afterExec (.prn 8) s).status ≠ s.status ∧
    ∀ i ∈ [Instr.ldi 3 9, .cmp 0 7, .prn 0, .call 0, .hlt, .prn 8], (Result.next? (exec i s)).isSome := by decide

/-- A CMP that completes; an instruction that is no conditional jump; a JNE with flags that are both not `Equal`. -/
theorem witness_FlagsHaveOneWriterAndOneTest :
    let s := machine 0 []
    exec (.cmp 0 7) s = .next (afterExec (.cmp 0 7) s) ∧ s.status = .running ∧
    (afterExec (.cmp 0 7) s).status = .running ∧ (afterExec (.cmp 0 7) s).fl ≠ s.fl ∧
    (∀ a, Instr.cmp 0 7 ≠ .jeq a ∧ Instr.cmp 0 7 ≠ .jne a) ∧
    exec (.jne 3) s = .next (afterExec (.jne 3) s) ∧ (Flag.lessThan = .equal ↔ s.fl = .equal) :=
  ⟨rfl, rfl, rfl, by decide, fun _ => ⟨Instr.noConfusion, Instr.noConfusion⟩, rfl, by decide⟩

theorem witness_ComparedFlagsStayCompared :
    let s := machine 0 [0x01] [] .lessThan
    stepTimes 2 s = .next (after s) ∧ s.fl ≠ .unset := ⟨rfl, by decide⟩

theorem witness_OutputGrowsAndIsNeverRead :
    step (machine 0 [0x47, 7]) = .next (after (machine 0 [0x47, 7])) := rfl

/-- An unknown opcode, and an index out of range. -/
theorem witness_ErrorsArePrecise :
    step (machine 0 []) = .next (after (machine 0 [])) ∧ (after (machine 0 [])).failed ∧
    step (machine 0 [0x47, 8]) = .next (after (machine 0 [0x47, 8])) ∧ (after (machine 0 [0x47, 8])).failed :=
  ⟨rfl, ⟨_, rfl⟩, rfl, ⟨_, rfl⟩⟩

theorem witness_OnlyHltSucceeds :
    (machine 253 [0x01]).status = .running ∧ step (machine 253 [0x01]) = .next (after (machine 253 [0x01])) ∧
    (after (machine 253 [0x01])).succeeded := ⟨rfl, rfl, rfl⟩

theorem witness_StoppedMachineStaysStopped :
    stepTimes 1 (machine 0 [0x01]) = .next (after (machine 0 [0x01])) ∧
    (after (machine 0 [0x01])).status ≠ .running := ⟨rfl, by decide⟩

/-- V-J2 run with fuel: the state before the last step is running. -/
theorem witness_RunRepeatsStepUntilStopped :
    State.run 2 (machine 0 [0x54, 0]) = .next (machine 0 [0x54, 0]) ∧
    stepTimes 1 (machine 0 [0x54, 0]) = .next (machine 0 [0x54, 0]) := ⟨rfl, rfl⟩

theorem witness_NoProgramRaisesUnknown : ∀ m, Config.default.implements m = true → Config.default.opcodes.byte m ≠ 0 := by
  intro m
  cases m <;> decide

theorem witness_LoadFillsMemoryFromZero :
    (List.replicate 256 (7 : Byte)).length ≤ 256 ∧ ([] : List Byte).length ≤ 256 :=
  ⟨by rw [List.length_replicate], by decide⟩

theorem witness_OversizedLoadChangesNothing : 256 < (List.replicate 257 (7 : Byte)).length := by
  rw [List.length_replicate]; decide

/-- A used machine in its reset state, and a machine that differs from the reset state in its flags only. -/
theorem witness_LateLoadIsRefused :
    (Session.mk State.reset false).unused = false ∧
    (machine 0 [] [] .equal) ≠ State.resetWith (machine 0 [] [] .equal).cfg := by decide

/-- Each of the three requests, from a machine just started, with a further request that is no reset. -/
theorem witness_LoadIsOnceAndBeforeFirstStep :
    Request.reset ∉ [Request.load [1], .run 0, .step] ∧ (List.replicate 256 (7 : Byte)).length ≤ 256 ∧
    ((Session.start Config.default).serve (.load [])).2 = .loaded ∧
    ((Session.start Config.default).serve (.run (0 + 1))).2 = .status (.error .unknownInstruction) :=
  ⟨by decide, by rw [List.length_replicate], by decide, by decide⟩

/-- A running machine and a step of it. -/
theorem witness_StepKeepsInvariant :
    (machine 0 [0x50, 1] [(1, 9)]).Inv Config.withOptions ∧
    step (machine 0 [0x50, 1] [(1, 9)]) = .next (after (machine 0 [0x50, 1] [(1, 9)])) :=
  ⟨⟨by decide, trivial, rfl, by decide⟩, rfl⟩

theorem witness_ResetMeetsInvariant : Config.wf Config.default ∧ Config.wf Config.withOptions := by decide

/-- A state that a load and a step reach. -/
theorem witness_ReachableStatesMeetInvariant :
    Config.wf Config.default ∧
    ∃ t u, State.reset.load [0x82, 0, 8] = .next t ∧ step t = .next u ∧ Reachable Config.default u :=
  ⟨by decide, _, _, rfl, rfl, .step _ _ (.load [0x82, 0, 8] _ rfl) rfl⟩

/-- A step that prints, with another separator and initial stack pointer. -/
theorem witness_StepReadsNoSinkOrResetParameter :
    step (machine 0 [0x47, 7]) = .next (after (machine 0 [0x47, 7])) ∧
    Config.withOptions ≠ { Config.withOptions with spInit := 0x80, outSeparator := [' '] } := ⟨rfl, by decide⟩

/-- A machine just started, and a running one that is used. -/
theorem witness_HostRequestsKeepInvariant :
    (Session.start Config.default).Inv Config.default ∧
    Session.Inv Config.withOptions ⟨machine 0 [0x50, 1] [(1, 9)], false⟩ :=
  ⟨⟨⟨by decide, trivial, rfl, by decide⟩, fun _ => rfl⟩, ⟨⟨by decide, trivial, rfl, by decide⟩, Bool.noConfusion⟩⟩

theorem witness_PortsShowTheStep :
    Session.serve ⟨machine 0 [0x47, 8], false⟩ .step =
      (⟨after (machine 0 [0x47, 8]), false⟩, .status (.error .outOfBounds)) := by decide

end Sys2Proof.Tests
end

section
/-! PROOFS. The memory list and the flags register: equal cells are equal data (O35), one writer and one test of `fl` (O38). -/

namespace Sys2Proof.Machine

open Sys2Proof

/-! ### Memory -/

/-- A canonical memory lists nothing past the address space, so nothing but the default is read there. -/
theorem Memory.readByte_of_memSize_le {m : Memory} (h : m.wf) {a : Nat} (ha : memSize ≤ a) :
    m.readByte a = Memory.unlisted := by
  induction m with
  | nil => rfl
  | cons c m ih =>
    have hc : c.1 ≠ a := by have := (h.2 c (by simp)).1; omega
    simp only [Memory.readByte, hc, if_false, ih (Memory.wf_tail h)]

/-- Settles O35: the two memories agree past the address space as well, where both read as an unlisted cell, and memories that
agree everywhere are the same list. -/
theorem equalCellsEqualMemory : Obligations.EqualCellsEqualMemory := by
  intro m n hm hn h
  refine Memory.eq_of_readByte_eq hm hn fun a => ?_
  by_cases ha : a ≤ 255
  · exact h a ha
  · have hle : memSize ≤ a := by simp only [memSize]; omega
    rw [Memory.readByte_of_memSize_le hm hle, Memory.readByte_of_memSize_le hn hle]

/-! ### Flags: each operation commutes with a replacement of `fl` -/

/-- The one test of the flags is a comparison with `Equal` (10_state.md R21). -/
theorem Flag.isEqual_iff {f : Flag} : f.isEqual = true ↔ f = .equal := by cases f <;> decide

/-- A comparison never leaves the flags `Unset` (42_alu.md R79). -/
theorem compareFlag_ne_unset (va vb : Byte) : compareFlag va vb ≠ .unset := by
  unfold compareFlag
  split
  · decide
  · split <;> decide

section

variable (s : State) (f : Flag)

@[simp] theorem State.setReg_setFl (r : Fin 8) (v : Byte) : (s.setFl f).setReg r v = (s.setReg r v).setFl f := rfl

@[simp] theorem State.setPc_setFl (v : Byte) : (s.setFl f).setPc v = (s.setPc v).setFl f := rfl

@[simp] theorem State.emit_setFl (v : Byte) : (s.setFl f).emit v = (s.emit v).setFl f := rfl

@[simp] theorem State.memRead_setFl (addr : Nat) : (s.setFl f).memRead addr = s.memRead addr := rfl

@[simp] theorem State.readReg_setFl (a : Byte) : (s.setFl f).readReg a = s.readReg a := rfl

@[simp] theorem State.seqPc_setFl (len : Nat) : (s.setFl f).seqPc len = s.seqPc len := rfl

@[simp] theorem State.writeReg_setFl (a v : Byte) :
    (s.setFl f).writeReg a v = (·.setFl f) <$> s.writeReg a v := by
  simp [State.writeReg]

@[simp] theorem State.advance_setFl (len : Nat) : (s.setFl f).advance len = (·.setFl f) <$> s.advance len := by
  simp [State.advance]

@[simp] theorem State.jumpTo_setFl (a : Byte) : (s.setFl f).jumpTo a = (·.setFl f) <$> s.jumpTo a := by
  simp [State.jumpTo]

@[simp] theorem State.memWrite_setFl (addr : Nat) (v : Byte) :
    (s.setFl f).memWrite addr v = (·.setFl f) <$> s.memWrite addr v := by
  unfold State.memWrite
  split <;> rfl

@[simp] theorem State.push_setFl (v : Byte) : (s.setFl f).push v = (·.setFl f) <$> s.push v := by
  simp only [State.push, State.setFl_reg, State.setReg_setFl, State.memWrite_setFl]
  split <;> rfl

@[simp] theorem State.pop_setFl : (s.setFl f).pop = (fun p => (p.1, p.2.setFl f)) <$> s.pop := by
  by_cases h : s.reg spReg = 255
  · simp only [State.pop, State.setFl_reg, h, if_true]; rfl
  · simp only [State.pop, State.setFl_reg, h, if_false, State.memRead_setFl, State.setReg_setFl, map_bind, map_pure]

/-- A conditional jump reads the flags in its condition only. -/
@[simp] theorem State.branch_setFl (taken : Bool) (a : Byte) :
    (s.setFl f).branch taken a = (·.setFl f) <$> s.branch taken a := by
  cases taken <;> simp [branch_eq]

/-- An ALU operation that answers a register result neither reads nor writes the flags. -/
theorem State.aluInstr_setFl {op : AluOp} (hop : ∀ va vb, ∃ w, aluApply op va vb = .register w) (a b : Byte) :
    (s.setFl f).aluInstr op a b = (·.setFl f) <$> s.aluInstr op a b := by
  have writeBack (va vb : Byte) :
      (s.setFl f).writeBack a (aluApply op va vb) = (·.setFl f) <$> s.writeBack a (aluApply op va vb) := by
    obtain ⟨w, hw⟩ := hop va vb
    simp only [hw, State.writeBack, State.writeReg_setFl]
  simp [State.aluInstr, writeBack]

/-- CMP overwrites the flags without reading them (42_alu.md R82). -/
theorem attempt_cmp_setFl (a b : Byte) : attempt (.cmp a b) (s.setFl f) = attempt (.cmp a b) s := rfl

end

/-- Every instruction but CMP carries a replaced flag value along unread, a conditional jump if its one test comes out as
before (10_state.md R21). -/
theorem attempt_setFl {i : Instr} {s : State} {f : Flag} (hw : ∀ a b, i ≠ .cmp a b)
    (hr : (∀ a, i ≠ .jeq a ∧ i ≠ .jne a) ∨ f.isEqual = s.fl.isEqual) :
    attempt i (s.setFl f) = (·.setFl f) <$> attempt i s := by
  cases i with
  | cmp a b => exact absurd rfl (hw a b)
  | jeq a =>
    obtain h | h := hr
    · exact absurd rfl (h a).1
    · simp [attempt, h]
  | jne a =>
    obtain h | h := hr
    · exact absurd rfl (h a).2
    · simp [attempt, h]
  | mul a b => exact State.aluInstr_setFl s f (fun _ _ => ⟨_, rfl⟩) a b
  | add a b => exact State.aluInstr_setFl s f (fun _ _ => ⟨_, rfl⟩) a b
  | hlt => rfl
  | ldi a b => simp [attempt]
  | prn a => simp [attempt]
  | call a => simp [attempt]
  | jmp a => simp [attempt]
  | ret => simp [attempt]

/-- The same of a committed instruction: an error keeps the flags, whatever they are. -/
theorem exec_setFl {i : Instr} {s t : State} {f : Flag} (hw : ∀ a b, i ≠ .cmp a b)
    (hr : (∀ a, i ≠ .jeq a ∧ i ≠ .jne a) ∨ f.isEqual = s.fl.isEqual) (h : exec i s = .next t) :
    exec i (s.setFl f) = .next (t.setFl f) := by
  rw [exec_eq_settle] at h
  rw [exec_eq_settle, attempt_setFl hw hr]
  obtain hok | ⟨k, hk, rfl⟩ := settle_eq_next.mp h
  · rw [hok]; rfl
  · rw [hk]; rfl

/-- CMP alone writes the flags: any other instruction, run with the flags replaced by what they are, leaves them so. -/
theorem exec_keeps_fl {i : Instr} {s t : State} (hw : ∀ a b, i ≠ .cmp a b) (h : exec i s = .next t) : t.fl = s.fl := by
  have hself : exec i s = .next (t.setFl s.fl) := exec_setFl (f := s.fl) hw (.inr rfl) h
  rw [h] at hself
  have ht : t = t.setFl s.fl := Host.Outcome.next.inj hself
  rw [ht, State.setFl_fl]

/-- A CMP either completes, leaving an outcome, with the same next state whatever the flags were, or raises, keeping them. -/
theorem exec_cmp_setFl {a b : Byte} {s t : State} (f : Flag) (h : exec (.cmp a b) s = .next t) :
    (t.fl ≠ .unset ∧ exec (.cmp a b) (s.setFl f) = .next t) ∨
    (∃ k, t = s.raise k ∧ exec (.cmp a b) (s.setFl f) = .next ((s.setFl f).raise k)) := by
  rw [exec_eq_settle] at h
  rw [exec_eq_settle, attempt_cmp_setFl]
  obtain hok | ⟨k, hk, rfl⟩ := settle_eq_next.mp h
  · obtain ⟨r, q, -, -, v, -, rfl⟩ := attempt_ok hok
    exact .inl ⟨compareFlag_ne_unset _ _, by rw [hok]; rfl⟩
  · exact .inr ⟨k, rfl, by rw [hk]; rfl⟩

/-- Settles O38: CMP by what it can do, every other instruction by commuting with the replacement of `fl`. -/
theorem flagsHaveOneWriterAndOneTest : Obligations.FlagsHaveOneWriterAndOneTest := by
  intro i s t f h
  by_cases hcmp : ∃ a b, i = .cmp a b
  · obtain ⟨a, b, rfl⟩ := hcmp
    refine ⟨fun _ => ⟨a, b, rfl⟩, fun _ _ ht => ?_, fun _ => ?_⟩
    · obtain hdone | ⟨k, rfl, -⟩ := exec_cmp_setFl f h
      · exact hdone
      · exact Status.noConfusion ht
    · obtain ⟨-, hu⟩ | ⟨k, rfl, hu⟩ := exec_cmp_setFl f h
      · exact ⟨t, hu, rfl⟩
      · exact ⟨_, hu, rfl⟩
  · have hw : ∀ a b, i ≠ .cmp a b := fun a b hi => hcmp ⟨a, b, hi⟩
    refine ⟨fun hfl => absurd (exec_keeps_fl hw h) hfl, fun hi => absurd hi hcmp, fun hr => ?_⟩
    have htest : (∀ a, i ≠ .jeq a ∧ i ≠ .jne a) ∨ f.isEqual = s.fl.isEqual :=
      hr.imp_right fun heq => by rw [Bool.eq_iff_iff, Flag.isEqual_iff, Flag.isEqual_iff, heq]
    exact ⟨t.setFl f, exec_setFl hw htest h, rfl⟩

end Sys2Proof.Machine
end

section
/-! PROOFS. The step whose opcode byte the dispatch table does not hold (O9). -/

namespace Sys2Proof.Machine

open Sys2Proof

/-- An opcode byte the lookup does not find is rejected, whatever follows it (40_fetch_decode_dispatch.md R62, R63). -/
theorem decode_of_lookup_none {c : Config} {ir : Byte} (h : c.lookup ir = none) (rest : List Byte) :
    decode c (ir :: rest) = .error (.unknownInstruction ir) := by
  simp only [decode, h]

/-- Raising an error enters it (60_exceptions.md R103). -/
theorem errorEntered_raise (k : ErrorKind) (s : State) : ErrorEntered k s (s.raise k) where
  status := rfl
  regs _ _ := rfl
  pc := rfl
  fl := rfl
  bytes _ _ := rfl
  out := rfl
  cfg := rfl

/-- A running machine that cannot fetch and decode an instruction raises that error, and its step does nothing else. -/
theorem step_of_fetchDecode_error {s : State} {k : ErrorKind} (hrun : s.status = .running)
    (h : s.fetchDecode = .error k) : step s = .next (s.raise k) := by
  simp only [step, isRunning_iff.mpr hrun, h, if_true, State.settle]

/-- Settles O9: the lookup finds no row, so the decoder rejects the fetched bytes and the step raises before any execution. -/
theorem unknownOpcodeRaises : Obligations.UnknownOpcodeRaises := by
  intro s hrun hpc hunknown
  have hdecode : decode s.cfg s.fetched = .error (.unknownInstruction (s.byteAt s.pc.toNat)) :=
    decode_of_lookup_none (lookup_eq_none.mpr hunknown) _
  have hfetch : s.fetchDecode = .error .unknownInstruction :=
    fetchDecode_eq_error.mpr (.inr ⟨hpc, _, hdecode, rfl⟩)
  exact ⟨_, step_of_fetchDecode_error hrun hfetch, errorEntered_raise _ s⟩

end Sys2Proof.Machine
end

section
/-! PROOFS. Load-Immediate, Print-Register and Halt (O13, O14, O15), after what every instruction's rule needs: its encoding is
read back, a completed instruction is what `exec` answers, and one that cannot complete raises. -/

namespace Sys2Proof

/-- Decoding an encoded instruction gives it back and leaves what follows. -/
theorem decode_encode_append {c : Config} {i : Instr} (hc : c.wf) (hi : i.wf c) (rest : List Byte) :
    decode c (encode c i ++ rest) = .ok (i, rest) := by
  simp only [encode, List.cons_append, decode, lookup_byte hc hi]
  cases i <;> rfl

end Sys2Proof

namespace Sys2Proof.Machine

open Sys2Proof

/-- The bytes of an instruction are its opcode byte and its operand bytes (30_encoding.md R45, R46). -/
theorem encodes_opcode_operands (i : Instr) : Encodes i fun m => m.byte i.mnemonic :: i.operandBytes :=
  fun _ rest hc hi => ⟨rfl, decode_encode_append hc hi rest⟩

/-- The shape of MUL, CMP and ADD succeeds when its write back and its successor do. -/
theorem aluInstr_of_writeBack {s t u : State} {op : AluOp} {a b : Byte} {r q : Fin 8} (hr : a.toNat = r.val)
    (hq : b.toNat = q.val) (hu : s.writeBack a (aluApply op (s.reg r) (s.reg q)) = .ok u) (ht : u.advance 3 = .ok t) :
    s.aluInstr op a b = .ok t :=
  bind_eq_ok.mpr ⟨_, readReg_eq_ok.mpr ⟨r, hr, rfl⟩, bind_eq_ok.mpr ⟨_, readReg_eq_ok.mpr ⟨q, hq, rfl⟩,
    bind_eq_ok.mpr ⟨u, hu, ht⟩⟩⟩

/-- The converse of `attempt_ok`: what an instruction's rule allows as its completion is what it does. -/
theorem attempt_of_completed {i : Instr} {s t : State} (h : Completed i s t) : attempt i s = .ok t := by
  cases i with
  | ldi a b =>
    obtain ⟨r, hr, v, hv, rfl⟩ := h
    exact bind_eq_ok.mpr ⟨_, writeReg_eq_ok.mpr ⟨r, hr, rfl⟩, advance_eq_ok.mpr ⟨v, hv, rfl⟩⟩
  | prn a =>
    obtain ⟨r, hr, v, hv, rfl⟩ := h
    exact bind_eq_ok.mpr ⟨_, readReg_eq_ok.mpr ⟨r, hr, rfl⟩, advance_eq_ok.mpr ⟨v, hv, rfl⟩⟩
  | hlt => exact congrArg Except.ok h.symm
  | mul a b =>
    obtain ⟨r, q, hr, hq, v, hv, rfl⟩ := h
    exact aluInstr_of_writeBack hr hq (writeReg_eq_ok.mpr ⟨r, hr, rfl⟩) (advance_eq_ok.mpr ⟨v, hv, rfl⟩)
  | add a b =>
    obtain ⟨r, q, hr, hq, v, hv, rfl⟩ := h
    exact aluInstr_of_writeBack hr hq (writeReg_eq_ok.mpr ⟨r, hr, rfl⟩) (advance_eq_ok.mpr ⟨v, hv, rfl⟩)
  | cmp a b =>
    obtain ⟨r, q, hr, hq, v, hv, rfl⟩ := h
    exact aluInstr_of_writeBack hr hq rfl (advance_eq_ok.mpr ⟨v, hv, rfl⟩)
  | call a =>
    obtain ⟨r, hr, v, hv, h0, u, hu, rfl⟩ := h
    exact bind_eq_ok.mpr ⟨v, seqPc_eq_ok.mpr hv, bind_eq_ok.mpr ⟨u, push_eq_ok.mpr ⟨h0, hu⟩,
      jumpTo_eq_ok.mpr ⟨r, hr, rfl⟩⟩⟩
  | jmp a => exact jumpTo_eq_ok.mpr h
  | jeq a =>
    obtain ⟨hf, h⟩ | ⟨hf, h⟩ := h
    · rw [attempt, branch_eq, if_pos (Flag.isEqual_iff.mpr hf)]; exact jumpTo_eq_ok.mpr h
    · rw [attempt, branch_eq, if_neg (mt Flag.isEqual_iff.mp hf)]; exact advance_eq_ok.mpr h
  | jne a =>
    obtain ⟨hf, h⟩ | ⟨hf, h⟩ := h
    · rw [attempt, branch_eq, if_pos (by simpa [← Flag.isEqual_iff] using hf)]; exact jumpTo_eq_ok.mpr h
    · rw [attempt, branch_eq, if_neg (by simpa [← Flag.isEqual_iff] using hf)]; exact advance_eq_ok.mpr h
  | ret =>
    obtain ⟨h255, rfl⟩ := h
    exact bind_eq_ok.mpr ⟨_, pop_eq_ok.mpr ⟨h255, rfl, rfl⟩, rfl⟩

/-- An instruction that can complete in `t` answers `t`. -/
theorem exec_of_completed {i : Instr} {s t : State} (h : Completed i s t) : exec i s = .next t := by
  rw [exec_eq_settle, attempt_of_completed h, State.settle]

/-- An instruction that cannot complete raises `OutOfBounds` and changes nothing else (the spec's decision D7, log 11). -/
theorem raises_of_not_completed {i : Instr} {s : State} (h : ∀ t, ¬ Completed i s t) :
    Raises .outOfBounds s (exec i s) := by
  obtain ⟨t, ht⟩ := settle_next s (attempt i s)
  rw [← exec_eq_settle] at ht
  obtain rfl | hdone := exec_next_cases ht
  · exact ⟨_, ht, errorEntered_raise _ s⟩
  · exact absurd hdone (h t)

/-- Every number up to 255 is the value of a byte. -/
theorem exists_byte_toNat_eq {n : Nat} (h : n ≤ 255) : ∃ v : Byte, v.toNat = n :=
  ⟨Byte.ofNatMod n, Nat.mod_eq_of_lt (by omega)⟩

/-! ### LDI, PRN and HLT -/

/-- PRN of register `r`, wherever its successor is an address: the value is emitted and `pc` goes on (41_load_print_halt.md R74). -/
theorem exec_prn_next {a : Byte} {r : Fin 8} {s : State} (hr : a.toNat = r.val) (hpc : s.pc.toNat ≤ 253) :
    ∃ v : Byte, v.toNat = s.pc.toNat + 2 ∧ exec (.prn a) s = .next ((s.emit (s.reg r)).setPc v) := by
  obtain ⟨v, hv⟩ := exists_byte_toNat_eq (n := s.pc.toNat + 2) (by omega)
  exact ⟨v, hv, exec_of_completed ⟨r, hr, v, hv, rfl⟩⟩

/-- Settles O13: the completion is `attempt_of_completed` at the successor byte, the PRN after it reads the register just written,
and an index or a successor out of range leaves no completion. -/
theorem ldiLoadsImmediate : Obligations.LdiLoadsImmediate := by
  intro a b s
  refine ⟨encodes_opcode_operands (.ldi a b), fun r hr hpc => ?_, fun hbad => raises_of_not_completed ?_⟩
  · obtain ⟨v, hv⟩ := exists_byte_toNat_eq hpc
    refine ⟨(s.setReg r b).setPc v, exec_of_completed ⟨r, hr, v, hv, rfl⟩, by simp, hv, fun q hq => ?_,
      ⟨rfl, rfl, rfl, rfl⟩, fun _ _ => rfl, fun hfetch => ?_⟩
    · have hne : r ≠ q := fun h => hq (by simp [h])
      exact State.reg_setReg_other s b hne
    · obtain ⟨w, -, hprn⟩ := exec_prn_next hr hfetch
      exact ⟨_, hprn, by simp⟩
  · rintro t ⟨r, hr, v, hv, -⟩
    have := r.isLt
    have := v.isLt
    omega

/-- The model's character of a decimal digit is the library's. -/
theorem digitChar_eq (d : Nat) : digitChar d = Nat.digitChar (d % 10) := by
  have hdigit : ∀ k < 10, Char.ofNat ('0'.toNat + k) = Nat.digitChar k := by decide
  exact hdigit _ (Nat.mod_lt d (by decide))

/-- The numeral the sink shows is the decimal one (70_reset_and_hazards.md R122), in each of its three lengths. -/
theorem decimalText_eq_toDigits (v : Byte) : decimalText v = Nat.toDigits 10 v.toNat := by
  have h10 {n : Nat} (h : 10 ≤ n) : Nat.toDigits 10 n = Nat.toDigits 10 (n / 10) ++ [digitChar n] := by
    rw [Nat.toDigits_of_base_le (by decide) h, digitChar_eq]
  have h1 {n : Nat} (h : n < 10) : Nat.toDigits 10 n = [digitChar n] := by
    rw [Nat.toDigits_of_lt_base h, digitChar_eq, Nat.mod_eq_of_lt h]
  have hv := v.isLt
  simp only [decimalText]
  split
  · next hone => exact (h1 hone).symm
  · split
    · rw [h10 (by omega), h1 (by omega), List.singleton_append]
    · rw [h10 (by omega), h10 (by omega), h1 (by omega), Nat.div_div_eq_div_mul]
      rfl

/-- Settles O14: the completion appends one value to OUT, whose text is its numeral and the separator, and an index out of range
leaves no completion. -/
theorem prnEmitsRegister : Obligations.PrnEmitsRegister := by
  intro a s hpc
  refine ⟨encodes_opcode_operands (.prn a), fun r hr => ?_, fun hbad => raises_of_not_completed ?_⟩
  · obtain ⟨v, hv, hexec⟩ := exec_prn_next hr hpc
    refine ⟨_, hexec, rfl, ?_, hv, rfl, rfl, rfl, fun _ _ => rfl, fun _ _ => rfl⟩
    simp [State.shownText, decimalText_eq_toDigits]
  · rintro t ⟨r, hr, -⟩
    have := r.isLt
    omega

/-- A machine that does not run steps to itself (10_state.md R23; the spec's decision D13, log 16). -/
theorem step_of_not_running {s : State} (h : s.status ≠ .running) : step s = .next s := by
  rw [step, if_neg (mt isRunning_iff.mp h), State.settle]

/-- Settles O15: HLT always completes, writing STATUS alone, and a halted machine does not run. -/
theorem hltStopsTheMachine : Obligations.HltStopsTheMachine := fun s =>
  ⟨encodes_opcode_operands .hlt, s.setStatus .halted, exec_of_completed rfl, rfl, rfl, rfl, rfl, rfl,
    fun _ _ => rfl, fun _ _ => rfl, step_of_not_running Status.noConfusion⟩

end Sys2Proof.Machine
end

section
/-! PROOFS. The ALU and its instructions MUL, CMP and ADD (O16, O19, O20, O21), after what the three share: what a register result
leaves behind, what a comparison answers, and the operands and successor without which none of them completes. -/

namespace Sys2Proof.Machine

open Sys2Proof

/-! ### What a comparison answers (42_alu.md R79) -/

theorem compareFlag_of_eq {va vb : Byte} (h : va.toNat = vb.toNat) : compareFlag va vb = .equal := if_pos h

theorem compareFlag_of_lt {va vb : Byte} (h : va.toNat < vb.toNat) : compareFlag va vb = .lessThan := by
  rw [compareFlag, if_neg h.ne, if_pos h]

theorem compareFlag_of_gt {va vb : Byte} (h : vb.toNat < va.toNat) : compareFlag va vb = .greaterThan := by
  rw [compareFlag, if_neg h.ne', if_neg h.not_gt]

/-! ### What the three instructions share (42_alu.md R76) -/

/-- An instruction whose completion writes the result `n` mod 256 into register `r` and goes on to `pc + 3` completes wherever that
successor is an address, and leaves everything else as it was. -/
theorem exec_registerResult {i : Instr} {s : State} {r : Fin 8} {n : Nat} (hpc : s.pc.toNat + 3 ≤ 255)
    (hdone : ∀ v : Byte, v.toNat = s.pc.toNat + 3 → Completed i s ((s.setReg r (Byte.ofNatMod n)).setPc v)) :
    ∃ t, exec i s = .next t ∧ (t.reg r).toNat = n % 256 ∧ t.pc.toNat = s.pc.toNat + 3 ∧
      RegsKeptExcept [r] s t ∧ SpecialsKept s t ∧ BytesKeptExcept [] s t := by
  obtain ⟨v, hv⟩ := exists_byte_toNat_eq hpc
  refine ⟨_, exec_of_completed (hdone v hv), by simp, hv, fun q hq => ?_, ⟨rfl, rfl, rfl, rfl⟩, fun _ _ => rfl⟩
  have hne : r ≠ q := fun h => hq (by simp [h])
  exact State.reg_setReg_other s _ hne

/-- Two operand bytes that name registers and a successor inside memory exclude every cause of an error of MUL, CMP and ADD. -/
theorem operands_and_successor_in_range {a b v : Byte} {r q : Fin 8} {pc : Nat} (hr : a.toNat = r.val)
    (hq : b.toNat = q.val) (hv : v.toNat = pc + 3) : ¬ (7 < a.toNat ∨ 7 < b.toNat ∨ 255 < pc + 3) := by
  have := r.isLt
  have := q.isLt
  have := v.isLt
  omega

/-! ### The instructions -/

/-- Settles O19: the completion is a register result, the product, and an index or a successor out of range leaves no
completion. -/
theorem mulMultipliesRegisters : Obligations.MulMultipliesRegisters := by
  intro a b s
  refine ⟨encodes_opcode_operands (.mul a b), fun r q hr hq hpc => ?_, fun hbad => raises_of_not_completed ?_⟩
  · exact exec_registerResult hpc fun v hv => ⟨r, q, hr, hq, v, hv, rfl⟩
  · rintro t ⟨r, q, hr, hq, v, hv, -⟩
    exact operands_and_successor_in_range hr hq hv hbad

/-- Settles O21: as MUL, with the sum for the product. -/
theorem addSumsRegisters : Obligations.AddSumsRegisters := by
  intro a b s
  refine ⟨encodes_opcode_operands (.add a b), fun r q hr hq hpc => ?_, fun hbad => raises_of_not_completed ?_⟩
  · exact exec_registerResult hpc fun v hv => ⟨r, q, hr, hq, v, hv, rfl⟩
  · rintro t ⟨r, q, hr, hq, v, hv, -⟩
    exact operands_and_successor_in_range hr hq hv hbad

/-- Settles O20: the completion writes `fl` and `pc` alone, `fl` by the three cases of a comparison; an index or a successor out of
range leaves no completion. -/
theorem cmpSetsFlags : Obligations.CmpSetsFlags := by
  intro a b s
  refine ⟨encodes_opcode_operands (.cmp a b), fun r q hr hq hpc => ?_, fun hbad => raises_of_not_completed ?_⟩
  · obtain ⟨v, hv⟩ := exists_byte_toNat_eq hpc
    exact ⟨_, exec_of_completed ⟨r, q, hr, hq, v, hv, rfl⟩, compareFlag_of_eq, compareFlag_of_lt, compareFlag_of_gt, hv,
      rfl, rfl, rfl, fun _ _ => rfl, fun _ _ => rfl⟩
  · rintro t ⟨r, q, hr, hq, v, hv, -⟩
    exact operands_and_successor_in_range hr hq hv hbad

/-- Settles O16: the product at the instruction is O19's, sum and product are the reduced integers by definition, and the flags are
the three cases of a comparison. -/
theorem aluComputesExactly : Obligations.AluComputesExactly := by
  refine ⟨fun a b r q s hr hq hpc => ?_, fun va vb => ⟨?sum, ?product, fun h => ?less, fun h => ?greater, fun h => ?equal⟩⟩
  · obtain ⟨-, hcompletes, -⟩ := mulMultipliesRegisters a b s
    obtain ⟨t, hexec, hres, -⟩ := hcompletes r q hr hq hpc
    exact ⟨t, hexec, hres⟩
  case sum => exact ⟨_, rfl, BitVec.toNat_ofNat _ 8⟩
  case product => exact ⟨_, rfl, BitVec.toNat_ofNat _ 8⟩
  case less => rw [aluApply, compareFlag_of_lt h]
  case greater => rw [aluApply, compareFlag_of_gt h]
  case equal => rw [aluApply, compareFlag_of_eq (congrArg BitVec.toNat h)]

end Sys2Proof.Machine
end

section
/-! PROOFS. The stack and control transfer (O22 to O29, O32): what push and pop leave, CALL and RET by them, the jumps as
instructions that write `pc` alone; and `pc` over all instructions by the descriptor's rule (O36). -/

namespace Sys2Proof.Machine

open Sys2Proof

/-! ### Push and pop (43_control_and_stack.md R85, R86) -/

/-- A stack pointer that is not 0 goes down by one without wrapping. -/
theorem toNat_sub_one_add_one {v : Byte} (h : v ≠ 0) : (v - 1).toNat + 1 = v.toNat := by bv_omega

/-- A stack pointer that is not 255 goes up by one without wrapping. -/
theorem toNat_add_one_of_ne {v : Byte} (h : v ≠ 255) : (v + 1).toNat = v.toNat + 1 := by bv_omega

/-- Writing one register keeps the others. -/
theorem regsKeptExcept_setReg (s : State) (r : Fin 8) (v : Byte) : RegsKeptExcept [r] s (s.setReg r v) := by
  intro q hq
  have hne : r ≠ q := fun h => hq (by simp [h])
  exact State.reg_setReg_other s v hne

/-- The state a push of `v` that succeeds leaves (`push_eq_ok`). -/
def State.pushed (s : State) (v : Byte) : State :=
  (s.setReg spReg (s.reg spReg - 1)).setMem (s.mem.writeByte (s.reg spReg - 1).toNat v)

section

variable (s : State) (v : Byte)

theorem State.reg_pushed (r : Fin 8) : (s.pushed v).reg r = if r = spReg then s.reg spReg - 1 else s.reg r := by
  rw [State.pushed, State.setMem_reg, State.reg_setReg]
  simp only [eq_comm]

@[simp] theorem State.pushed_reg_sp : (s.pushed v).reg spReg = s.reg spReg - 1 := by simp [State.reg_pushed]

theorem regsKeptExcept_pushed : RegsKeptExcept [spReg] s (s.pushed v) := regsKeptExcept_setReg s spReg _

variable {s}

/-- A byte of memory after a push: the one pushed in the cell under the old stack pointer, elsewhere what was there. -/
theorem State.byteAt_pushed (hs : s.mem.wf) (addr : Nat) :
    (s.pushed v).byteAt addr = if (s.reg spReg - 1).toNat = addr then v else s.byteAt addr :=
  Memory.readByte_writeByte hs _ v addr

theorem State.byteAt_pushed_sp (hs : s.mem.wf) : (s.pushed v).byteAt (s.reg spReg - 1).toNat = v := by
  simp [State.byteAt_pushed v hs]

theorem bytesKeptExcept_pushed (hs : s.mem.wf) : BytesKeptExcept [(s.reg spReg - 1).toNat] s (s.pushed v) := by
  intro addr haddr
  have hne : (s.reg spReg - 1).toNat ≠ addr := fun h => haddr (List.mem_singleton.mpr h.symm)
  rw [State.byteAt_pushed v hs, if_neg hne]

end

/-- An instruction that completes keeps the memory unless it is a CALL (43_control_and_stack.md R85), and STATUS unless it halts. -/
theorem mem_status_of_completed {i : Instr} {s t : State} (h : Completed i s t) :
    (t.mem = s.mem ∨ ∃ a, i = .call a) ∧ (t.status = s.status ∨ t.status = .halted) := by
  cases i with
  | call a => obtain ⟨r, -, v, -, -, u, rfl, rfl⟩ := h; exact ⟨.inr ⟨a, rfl⟩, .inl rfl⟩
  | hlt => cases h; exact ⟨.inl rfl, .inr rfl⟩
  | ldi a b => obtain ⟨r, -, v, -, rfl⟩ := h; exact ⟨.inl rfl, .inl rfl⟩
  | prn a => obtain ⟨r, -, v, -, rfl⟩ := h; exact ⟨.inl rfl, .inl rfl⟩
  | mul a b => obtain ⟨r, q, -, -, v, -, rfl⟩ := h; exact ⟨.inl rfl, .inl rfl⟩
  | add a b => obtain ⟨r, q, -, -, v, -, rfl⟩ := h; exact ⟨.inl rfl, .inl rfl⟩
  | cmp a b => obtain ⟨r, q, -, -, v, -, rfl⟩ := h; exact ⟨.inl rfl, .inl rfl⟩
  | jmp a => obtain ⟨r, -, rfl⟩ := h; exact ⟨.inl rfl, .inl rfl⟩
  | jeq a => obtain ⟨-, r, -, rfl⟩ | ⟨-, v, -, rfl⟩ := h <;> exact ⟨.inl rfl, .inl rfl⟩
  | jne a => obtain ⟨-, r, -, rfl⟩ | ⟨-, v, -, rfl⟩ := h <;> exact ⟨.inl rfl, .inl rfl⟩
  | ret => obtain ⟨-, rfl⟩ := h; exact ⟨.inl rfl, .inl rfl⟩

/-- Settles O22: both cases of a push by its two laws; an instruction other than CALL keeps the memory when it completes, and every
instruction keeps it when it raises. -/
theorem pushStoresBelowStackPointer : Obligations.PushStoresBelowStackPointer := by
  refine ⟨fun v s hs => ⟨fun h0 => push_eq_error.mpr ⟨h0, rfl⟩, fun h0 => ?_⟩, fun i s t addr h hchanged => ?_⟩
  · refine ⟨s.pushed v, push_eq_ok.mpr ⟨h0, rfl⟩, ?_, ?_, rfl, regsKeptExcept_pushed s v, ⟨rfl, rfl, rfl, rfl⟩,
      bytesKeptExcept_pushed v hs⟩
    · rw [State.pushed_reg_sp, toNat_sub_one_add_one h0]
    · rw [State.pushed_reg_sp, State.byteAt_pushed_sp v hs]
  · by_contra hcall
    obtain rfl | hdone := exec_next_cases h
    · exact hchanged rfl
    · have hmem : t.mem = s.mem := (mem_status_of_completed hdone).1.resolve_right hcall
      exact hchanged (by rw [State.byteAt, hmem, State.byteAt])

/-- Settles O23: both cases of a pop by its two laws. -/
theorem popReadsAtStackPointer : Obligations.PopReadsAtStackPointer := by
  refine fun s => ⟨fun h255 => pop_eq_error.mpr ⟨h255, rfl⟩, fun h255 => ?_⟩
  refine ⟨_, pop_eq_ok.mpr ⟨h255, rfl, rfl⟩, ?_, rfl, regsKeptExcept_setReg s spReg _, ⟨rfl, rfl, rfl, rfl⟩, fun _ _ => rfl⟩
  rw [State.reg_setReg_same, toNat_add_one_of_ne h255]

/-! ### CALL and RET (43_control_and_stack.md R87, R91) -/

/-- An operand byte that names a register is below 8. -/
theorem not_seven_lt_of_toNat_eq {a : Byte} {r : Fin 8} (hr : a.toNat = r.val) : ¬ 7 < a.toNat := by
  have := r.isLt
  omega

/-- A CALL that completes pushes the successor byte, then jumps to its target register as the push left it (D9). -/
theorem completed_call {a : Byte} {s t : State} :
    Completed (.call a) s t ↔ ∃ (r : Fin 8) (v : Byte), a.toNat = r.val ∧ v.toNat = s.pc.toNat + 2 ∧ s.reg spReg ≠ 0 ∧
      t = (s.pushed v).setPc ((s.pushed v).reg r) := by
  constructor
  · rintro ⟨r, hr, v, hv, h0, u, rfl, rfl⟩
    exact ⟨r, v, hr, hv, h0, rfl⟩
  · rintro ⟨r, v, hr, hv, h0, rfl⟩
    exact ⟨r, hr, v, hv, h0, _, rfl, rfl⟩

/-- Settles O24: the completion is a push of the successor byte and a jump to the target read after it; an index out of range or a
stack pointer of 0 leaves no completion. -/
theorem callPushesReturnAddress : Obligations.CallPushesReturnAddress := by
  intro a s hs hpc
  refine ⟨encodes_opcode_operands (.call a), fun r hr h0 => ?_, fun hbad => raises_of_not_completed ?_⟩
  · obtain ⟨v, hv⟩ := exists_byte_toNat_eq (n := s.pc.toNat + 2) (by omega)
    refine ⟨(s.pushed v).setPc ((s.pushed v).reg r), exec_of_completed (completed_call.mpr ⟨r, v, hr, hv, h0, rfl⟩), ?_, ?_,
      s.reg_pushed v r, regsKeptExcept_pushed s v, ⟨rfl, rfl, rfl, rfl⟩, bytesKeptExcept_pushed v hs⟩
    · rw [State.setPc_reg, State.pushed_reg_sp, toNat_sub_one_add_one h0]
    · rw [State.setPc_byteAt, State.byteAt_pushed_sp v hs, hv]
  · rintro t ⟨r, hr, v, -, h0, -⟩
    exact hbad.elim (not_seven_lt_of_toNat_eq hr) h0

/-- RET, wherever the stack pointer can go up: the byte at it becomes `pc`. -/
theorem exec_ret_next {s : State} (h255 : s.reg spReg ≠ 255) :
    exec .ret s = .next ((s.setReg spReg (s.reg spReg + 1)).setPc (s.byteAt (s.reg spReg).toNat)) :=
  exec_of_completed ⟨h255, rfl⟩

/-- Settles O28: the completion is `exec_ret_next`, and a stack pointer of 255 leaves none. -/
theorem retPopsProgramCounter : Obligations.RetPopsProgramCounter := by
  refine fun s => ⟨encodes_opcode_operands .ret, fun h255 => ?_, fun h255 => raises_of_not_completed ?_⟩
  · refine ⟨_, exec_ret_next h255, rfl, ?_, regsKeptExcept_setReg s spReg _, ⟨rfl, rfl, rfl, rfl⟩, fun _ _ => rfl⟩
    rw [State.setPc_reg, State.reg_setReg_same, toNat_add_one_of_ne h255]
  · rintro t ⟨hne, -⟩
    exact hne h255

/-- Settles O29: the CALL pushed the successor of its address just under the old stack pointer, so the later RET finds it there and
its increment undoes the CALL's decrement. -/
theorem retUndoesCall : Obligations.RetUndoesCall := by
  intro a s t u hs _ _ hcall hrun hsp hbyte
  obtain rfl | hdone := exec_next_cases hcall
  · exact Status.noConfusion hrun
  · obtain ⟨r, v, -, hv, h0, rfl⟩ := completed_call.mp hdone
    simp only [State.setPc_reg, State.pushed_reg_sp, State.setPc_byteAt, State.byteAt_pushed_sp v hs] at hsp hbyte ⊢
    have h255 : u.reg spReg ≠ 255 := by rw [hsp]; bv_omega
    refine ⟨_, exec_ret_next h255, ?_, ?_, hbyte⟩
    · rw [State.setPc_pc, hsp, hbyte, hv]
    · rw [State.setPc_reg, State.reg_setReg_same, hsp, BitVec.sub_add_cancel]

/-! ### The jumps (43_control_and_stack.md R88 to R90) -/

/-- An instruction whose completion writes `pc` alone leaves everything else as it was. -/
theorem exec_setPc {i : Instr} {s : State} {v : Byte} (h : Completed i s (s.setPc v)) :
    ∃ t, exec i s = .next t ∧ t.pc = v ∧ RegsKeptExcept [] s t ∧ SpecialsKept s t ∧ BytesKeptExcept [] s t :=
  ⟨_, exec_of_completed h, rfl, fun _ _ => rfl, ⟨rfl, rfl, rfl, rfl⟩, fun _ _ => rfl⟩

/-- The same of a conditional jump that is not taken: `pc` goes on to its successor, wherever that is an address. -/
theorem exec_setPc_successor {i : Instr} {s : State} (hpc : s.pc.toNat ≤ 253)
    (h : ∀ v : Byte, v.toNat = s.pc.toNat + 2 → Completed i s (s.setPc v)) :
    ∃ t, exec i s = .next t ∧ t.pc.toNat = s.pc.toNat + 2 ∧ RegsKeptExcept [] s t ∧ SpecialsKept s t ∧
      BytesKeptExcept [] s t := by
  obtain ⟨v, hv⟩ := exists_byte_toNat_eq (n := s.pc.toNat + 2) (by omega)
  obtain ⟨t, hexec, rfl, hkept⟩ := exec_setPc (h v hv)
  exact ⟨t, hexec, hv, hkept⟩

/-- Settles O25: the completion writes `pc` alone, and an index out of range leaves none. -/
theorem jmpJumpsToRegister : Obligations.JmpJumpsToRegister := by
  refine fun a s => ⟨encodes_opcode_operands (.jmp a), fun r hr => exec_setPc ⟨r, hr, rfl⟩,
    fun hbad => raises_of_not_completed ?_⟩
  rintro t ⟨r, hr, -⟩
  exact not_seven_lt_of_toNat_eq hr hbad

/-- Settles O26: taken and not taken are the two completions, each writing `pc` alone; on `Equal` with an index out of range there
is neither. -/
theorem jeqJumpsOnlyOnEqual : Obligations.JeqJumpsOnlyOnEqual := by
  refine fun a s hpc => ⟨encodes_opcode_operands (.jeq a), fun hf r hr => exec_setPc (.inl ⟨hf, r, hr, rfl⟩),
    fun hf hbad => raises_of_not_completed ?_, fun hf => exec_setPc_successor hpc fun v hv => .inr ⟨hf, v, hv, rfl⟩⟩
  rintro t (⟨-, r, hr, -⟩ | ⟨hne, -⟩)
  · exact not_seven_lt_of_toNat_eq hr hbad
  · exact hne hf

/-- Settles O27: as JEQ, with the test of the flags the other way round. -/
theorem jneJumpsUnlessEqual : Obligations.JneJumpsUnlessEqual := by
  refine fun a s hpc => ⟨encodes_opcode_operands (.jne a), fun hf r hr => exec_setPc (.inl ⟨hf, r, hr, rfl⟩),
    fun hf hbad => raises_of_not_completed ?_, fun hf => exec_setPc_successor hpc fun v hv => .inr ⟨hf, v, hv, rfl⟩⟩
  rintro t (⟨-, r, hr, -⟩ | ⟨heq, -⟩)
  · exact not_seven_lt_of_toNat_eq hr hbad
  · exact hf heq

/-- A running machine that fetches and decodes an instruction runs it (40_fetch_decode_dispatch.md R66). -/
theorem step_of_fetchDecode_ok {s : State} {i : Instr} (hrun : s.status = .running) (h : s.fetchDecode = .ok i) :
    step s = exec i s := by
  simp only [step, isRunning_iff.mpr hrun, h, if_true]

/-- A state that steps to itself does so any number of times. -/
theorem stepTimes_of_step_self {s : State} (h : step s = .next s) (n : Nat) : stepTimes n s = .next s := by
  induction n with
  | zero => rfl
  | succ n ih => rw [stepTimes, h]; exact ih

/-- Settles O32: the jump writes to `pc` what `pc` holds, so the step leads back to the same state. -/
theorem jumpToItselfNeverEnds : Obligations.JumpToItselfNeverEnds := by
  intro s a r n hrun hfetch hr hself
  have hjump : exec (.jmp a) s = .next s := exec_of_completed ⟨r, hr, by rw [hself]; rfl⟩
  exact stepTimes_of_step_self ((step_of_fetchDecode_ok hrun hfetch).trans hjump) n

/-! ### The program counter over all instructions (40_fetch_decode_dispatch.md R65) -/

/-- A running machine fails by no instruction that completes. -/
theorem not_failed_of_completed {i : Instr} {s t : State} (hrun : s.status = .running) (h : Completed i s t) :
    ¬ t.failed := by
  rintro ⟨k, hk⟩
  obtain ⟨-, hstatus | hstatus⟩ := mem_status_of_completed h
  · rw [hstatus, hrun] at hk; exact Status.noConfusion hk
  · rw [hstatus] at hk; exact Status.noConfusion hk

/-- An instruction that completes leaves `pc` where its descriptor's rule says. -/
theorem pcByRule_of_completed {i : Instr} {s t : State} (h : Completed i s t) : PcByRule i s t := by
  cases i with
  | ldi a b => obtain ⟨r, -, v, hv, rfl⟩ := h; exact hv
  | prn a => obtain ⟨r, -, v, hv, rfl⟩ := h; exact hv
  | hlt => cases h; rfl
  | mul a b => obtain ⟨r, q, -, -, v, hv, rfl⟩ := h; exact hv
  | add a b => obtain ⟨r, q, -, -, v, hv, rfl⟩ := h; exact hv
  | cmp a b => obtain ⟨r, q, -, -, v, hv, rfl⟩ := h; exact hv
  | call a => obtain ⟨r, hr, v, -, -, u, -, rfl⟩ := h; exact ⟨a, List.mem_singleton_self a, r, hr, rfl⟩
  | jmp a => obtain ⟨r, hr, rfl⟩ := h; exact ⟨a, List.mem_singleton_self a, r, hr, rfl⟩
  | jeq a =>
    obtain ⟨hf, r, hr, rfl⟩ | ⟨hf, v, hv, rfl⟩ := h
    · exact (if_pos hf).mpr ⟨a, List.mem_singleton_self a, r, hr, rfl⟩
    · exact (if_neg hf).mpr hv
  | jne a =>
    obtain ⟨hf, r, hr, rfl⟩ | ⟨hf, v, hv, rfl⟩ := h
    · exact (if_neg hf).mpr ⟨a, List.mem_singleton_self a, r, hr, rfl⟩
    · exact (if_pos hf).mpr hv
  | ret => obtain ⟨-, rfl⟩ := h; rfl

/-- Settles O36: an instruction that raises keeps `pc`, one that completes has not failed and follows the rule. -/
theorem pcFollowsDescriptor : Obligations.PcFollowsDescriptor := by
  intro i s t hrun h
  obtain rfl | hdone := exec_next_cases h
  · exact ⟨fun _ => rfl, fun hok => absurd ⟨_, rfl⟩ hok⟩
  · exact ⟨fun hfail => absurd hfail (not_failed_of_completed hrun hdone), fun _ => pcByRule_of_completed hdone⟩

end Sys2Proof.Machine
end

section
/-! PROOFS. What the host is answered: the new STATUS after a step (O12), and the load on a machine just reset (O47, O48). -/

namespace Sys2Proof.Machine

open Sys2Proof

/-! ### The new STATUS (70_reset_and_hazards.md R121) -/

/-- Only HLT writes STATUS when it completes (40_fetch_decode_dispatch.md R62). -/
theorem status_of_completed {i : Instr} {s t : State} (hi : i ≠ .hlt) (h : Completed i s t) : t.status = s.status := by
  cases i with
  | hlt => exact absurd rfl hi
  | call a => obtain ⟨r, -, v, -, -, u, rfl, rfl⟩ := h; rfl
  | ldi a b => obtain ⟨r, -, v, -, rfl⟩ := h; rfl
  | prn a => obtain ⟨r, -, v, -, rfl⟩ := h; rfl
  | mul a b => obtain ⟨r, q, -, -, v, -, rfl⟩ := h; rfl
  | add a b => obtain ⟨r, q, -, -, v, -, rfl⟩ := h; rfl
  | cmp a b => obtain ⟨r, q, -, -, v, -, rfl⟩ := h; rfl
  | jmp a => obtain ⟨r, -, rfl⟩ := h; rfl
  | jeq a => obtain ⟨-, r, -, rfl⟩ | ⟨-, v, -, rfl⟩ := h <;> rfl
  | jne a => obtain ⟨-, r, -, rfl⟩ | ⟨-, v, -, rfl⟩ := h <;> rfl
  | ret => obtain ⟨-, rfl⟩ := h; rfl

/-- An instruction other than HLT keeps STATUS or raises. -/
theorem exec_keeps_status_or_raises {i : Instr} {s t : State} (hi : i ≠ .hlt) (h : exec i s = .next t) :
    t.status = s.status ∨ ∃ k, ErrorEntered k s t := by
  obtain rfl | hdone := exec_next_cases h
  · exact .inr ⟨_, errorEntered_raise _ s⟩
  · exact .inl (status_of_completed hi hdone)

/-- Settles O12: a step answers some state, and which one is said by the law of the step's branch: stopped, an instruction found
(HLT or another), none found. -/
theorem stepAnswersNewStatus : Obligations.StepAnswersNewStatus := by
  intro h
  obtain ⟨t, ht⟩ := step_total h.machine
  have answer {u : State} (hu : step h.machine = .next u) : t = u := Host.Outcome.next.inj (ht.symm.trans hu)
  refine ⟨t, ht, serve_step ht, fun hstop => ?stopped, fun hrun hfetch => ?halts, fun hrun i hfetch hi => ?executes,
    fun hrun k hfetch => ?raises⟩
  case stopped => exact answer (step_of_not_running hstop)
  case halts =>
    rw [answer ((step_of_fetchDecode_ok hrun hfetch).trans (exec_of_completed rfl)), State.setStatus_status]
  case executes =>
    rw [← hrun]
    exact exec_keeps_status_or_raises hi ((step_of_fetchDecode_ok hrun hfetch).symm.trans ht)
  case raises =>
    rw [answer (step_of_fetchDecode_error hrun hfetch)]
    exact errorEntered_raise k _

/-! ### The load on a machine just reset (70_reset_and_hazards.md R118, R119) -/

/-- Right after reset the host's load is allowed, so it answers what the machine's load does. -/
theorem Session.load_start (c : Config) (bytes : List Byte) :
    (Session.start c).load bytes = (State.resetWith c).load bytes := if_pos ⟨rfl, rfl⟩

/-- The empty memory of the reset state is canonical. -/
theorem Memory.wf_nil : Memory.wf [] := ⟨.nil, nofun⟩

/-- Settles O47: the load fits, so it writes a row of bytes from address 0 into an empty memory, and nothing else. -/
theorem loadFillsMemoryFromZero : Obligations.LoadFillsMemoryFromZero := by
  intro c bytes hlen
  have hfits : loadBase + bytes.length ≤ memSize := (Nat.zero_add _).trans_le hlen
  obtain ⟨-, hserve⟩ | ⟨hbig, -⟩ := serve_load_of_unused (h := Session.start c) (bytes := bytes) rfl rfl
  · refine ⟨_, (Session.load_start c bytes).trans (load_eq_next.mpr ⟨hlen, rfl⟩), hserve, fun addr => ?_,
      Memory.wf_writeBytes Memory.wf_nil hfits, rfl, fun _ _ => rfl, ⟨rfl, rfl, rfl, rfl⟩⟩
    exact (Memory.readByte_writeBytes Memory.wf_nil hfits addr).trans (if_pos (Nat.zero_le addr))
  · exact absurd hlen hbig.not_ge

/-- Settles O48: the load does not fit, so it answers before it writes and leaves the session as it was, a machine just reset and
still running. -/
theorem oversizedLoadChangesNothing : Obligations.OversizedLoadChangesNothing := by
  intro c bytes hlen
  obtain ⟨hfits, -⟩ | ⟨-, hserve⟩ := serve_load_of_unused (h := Session.start c) (bytes := bytes) rfl rfl
  · exact absurd hlen hfits.not_gt
  · exact ⟨(Session.load_start c bytes).trans (load_eq_fault.mpr ⟨hlen, rfl⟩), hserve, rfl⟩

end Sys2Proof.Machine
end

section
/-! PROOFS. The decoder (O1 to O4): the byte strings it accepts are exactly the encodings of the instructions its lookup finds. -/

namespace Sys2Proof

/-- The instruction of a mnemonic has that mnemonic. -/
@[simp] theorem mnemonic_instr (m : Mnemonic) (a b : Byte) : (m.instr a b).mnemonic = m := by cases m <;> rfl

/-- The instruction of a mnemonic keeps of two operand bytes as many as its format has. -/
theorem operandBytes_instr (m : Mnemonic) (a b : Byte) :
    (m.instr a b).operandBytes = [a, b].take m.format.operandCount := by cases m <;> rfl

/-- An encoding is as long as its instruction. -/
theorem encode_length (c : Config) (i : Instr) : (encode c i).length = i.length := by
  rw [encode, List.length_cons, operandBytes_length, Instr.length, Format.length]

/-- The operand bytes taken off a string are the instruction's own, and none of the string is lost. -/
theorem takeOperands_eq_ok {m : Mnemonic} {bs rest : List Byte} {i : Instr}
    (h : m.descriptor.takeOperands bs = .ok (i, rest)) : i.mnemonic = m ∧ i.operandBytes ++ rest = bs := by
  simp only [Descriptor.takeOperands, descriptor_format, descriptor_mnemonic] at h
  split at h
  case h_4 => cases h
  all_goals
    next hcount =>
      cases h
      simp [operandBytes_instr, hcount]

/-- The decoder reads `i` from exactly the strings that start with the encoding of `i`, provided its lookup finds `i` by its
opcode byte (40_fetch_decode_dispatch.md R62, R71). -/
theorem decode_eq_ok {c : Config} {bs rest : List Byte} {i : Instr} :
    decode c bs = .ok (i, rest) ↔
      c.lookup (c.opcodes.byte i.mnemonic) = some i.mnemonic.descriptor ∧ bs = encode c i ++ rest := by
  constructor
  · intro h
    cases bs with
    | nil => cases h
    | cons ir tail =>
      cases hl : c.lookup ir with
      | none => simp only [decode, hl, reduceCtorEq] at h
      | some d =>
        obtain ⟨m, -, rfl, rfl⟩ := lookup_eq_some hl
        simp only [decode, hl] at h
        obtain ⟨rfl, rfl⟩ := takeOperands_eq_ok h
        exact ⟨hl, rfl⟩
  · rintro ⟨hl, rfl⟩
    simp only [encode, List.cons_append, decode, hl]
    cases i <;> rfl

/-- An instruction the lookup finds is implemented. -/
theorem wf_of_lookup {c : Config} {ir : Byte} {i : Instr} (h : c.lookup ir = some i.mnemonic.descriptor) : i.wf c := by
  obtain ⟨m, hm, -, hd⟩ := lookup_eq_some h
  have him : i.mnemonic = m := by simpa using congrArg Descriptor.mnemonic hd
  rw [Instr.wf, him]
  exact hm

/-- Settles O2: an implemented instruction's opcode byte finds its own descriptor, which takes exactly the operand bytes written. -/
theorem encodedInstructionDecodesBack : Obligations.EncodedInstructionDecodesBack :=
  fun _ _ rest hc hi => decode_encode_append hc hi rest

/-- Settles O3: by the characterisation of what the decoder accepts. -/
theorem decodedBytesAreTheEncoding : Obligations.DecodedBytesAreTheEncoding := by
  intro c bs i rest h
  obtain ⟨hl, rfl⟩ := decode_eq_ok.mp h
  exact ⟨rfl, wf_of_lookup hl⟩

/-- The bytes of a program are as many as the lengths of its instructions add up to. -/
theorem encodeAll_length (c : Config) (is : List Instr) : (encodeAll c is).length = (is.map Instr.length).sum := by
  simp only [encodeAll, List.length_flatMap, encode_length]

/-- Settles O4: what is skipped is exactly the encoding of the instructions before, and what is left starts with an encoding. -/
theorem encodedProgramDecodesInOrder : Obligations.EncodedProgramDecodesInOrder := by
  intro c before i after hc hi
  have hcut : (encodeAll c (before ++ i :: after)).drop (before.map Instr.length).sum =
      encode c i ++ encodeAll c after := by
    rw [← encodeAll_length c]
    simp only [encodeAll, List.flatMap_append, List.flatMap_cons, List.drop_left]
  rw [hcut]
  exact decode_encode_append hc hi _

/-- Settles O1: each of the eleven words, by evaluation. -/
theorem specWordsDecode : Obligations.SpecWordsDecode :=
  ⟨rfl, rfl, rfl, rfl, rfl, rfl, rfl, rfl, rfl, rfl, rfl⟩

end Sys2Proof
end

section
/-! PROOFS. Registers, memory cells and the ALU's laws (O17, O18, O33, O34). -/

namespace Sys2Proof.Machine

open Sys2Proof

/-! ### Registers and memory cells -/

/-- Settles O33: the laws of reading and writing a register by its operand byte, and the register written is the only one. -/
theorem registerIndexIsWholeByte : Obligations.RegisterIndexIsWholeByte := by
  refine fun a v s => ⟨fun r hr => ⟨readReg_eq_ok.mpr ⟨r, hr, rfl⟩, _, writeReg_eq_ok.mpr ⟨r, hr, rfl⟩, ?_, rfl,
    regsKeptExcept_setReg s r v, ⟨rfl, rfl, rfl, rfl⟩, fun _ _ => rfl⟩, fun hbad => ?_⟩
  · exact s.reg_setReg_same r v
  · exact ⟨readReg_eq_error.mpr ⟨hbad, rfl⟩, writeReg_eq_error.mpr ⟨hbad, rfl⟩⟩

/-- Settles O34: the laws of reading and writing a cell, and reading after writing in the memory list. -/
theorem memoryHoldsWhatWasWritten : Obligations.MemoryHoldsWhatWasWritten := by
  refine fun s addr v hs => ⟨fun hle => ?_, fun hbad => ?_⟩
  · have haddr : addr < memSize := Nat.lt_succ_of_le hle
    refine ⟨_, memWrite_eq_ok.mpr ⟨haddr, rfl⟩, Memory.wf_writeByte hs haddr v, memRead_eq_ok.mpr ⟨haddr, ?_⟩,
      fun x hx => ?_, rfl, fun _ _ => rfl, ⟨rfl, rfl, rfl, rfl⟩⟩
    · rw [State.setMem_byteAt, Memory.readByte_writeByte hs, if_pos rfl]
    · simp only [State.memRead, State.setMem_mem, Memory.readByte_writeByte hs, if_neg hx.symm]
  · exact ⟨memRead_eq_error.mpr ⟨hbad, rfl⟩, memWrite_eq_error.mpr ⟨hbad, rfl⟩⟩

/-! ### The ALU (42_alu.md R80, R84) -/

/-- The ALU's sum is the sum of bytes. -/
theorem aluApply_add (va vb : Byte) : aluApply .add va vb = .register (va + vb) := by
  simp [aluApply, BitVec.ofNat_add]

/-- The ALU's product is the product of bytes. -/
theorem aluApply_mul (va vb : Byte) : aluApply .mul va vb = .register (va * vb) := by
  simp [aluApply, BitVec.ofNat_mul]

theorem compareFlag_eq_equal {va vb : Byte} : compareFlag va vb = .equal ↔ va = vb := by
  rw [← BitVec.toNat_inj]
  rcases Nat.lt_trichotomy va.toNat vb.toNat with h | h | h
  · simp [compareFlag_of_lt h, h.ne]
  · simp [compareFlag_of_eq h, h]
  · simp [compareFlag_of_gt h, h.ne']

/-- A comparison turns round with its operands. -/
theorem compareFlag_eq_lessThan_swap {va vb : Byte} :
    compareFlag va vb = .lessThan ↔ compareFlag vb va = .greaterThan := by
  rcases Nat.lt_trichotomy va.toNat vb.toNat with h | h | h
  · simp [compareFlag_of_lt h, compareFlag_of_gt h]
  · simp [compareFlag_of_eq h, compareFlag_of_eq h.symm]
  · simp [compareFlag_of_lt h, compareFlag_of_gt h]

/-- Settles O17: sum and product are those of bytes, whose laws are the library's; the comparison by its three cases. -/
theorem aluObeysArithmeticLaws : Obligations.AluObeysArithmeticLaws := by
  intro va vb
  have cmp (f : Flag) (x y : Byte) : aluApply .cmp x y = .flags f ↔ compareFlag x y = f := by
    rw [aluApply, AluResult.flags.injEq]
  simp only [cmp, aluApply_add, aluApply_mul, AluResult.register.injEq, ne_eq]
  exact ⟨BitVec.add_comm va vb, BitVec.mul_comm va vb, BitVec.add_zero va, BitVec.mul_one va, BitVec.mul_zero,
    compareFlag_eq_equal, compareFlag_eq_lessThan_swap, compareFlag_ne_unset va vb,
    by rw [BitVec.ofInt_add, BitVec.ofInt_toInt, BitVec.ofInt_toInt],
    by rw [BitVec.ofInt_mul, BitVec.ofInt_toInt, BitVec.ofInt_toInt]⟩

/-- The ALU instruction shape with the operation the decoder never issues: with two registers to read it is the ALU that raises. -/
theorem aluInstr_unsupported {s : State} {a b : Byte} (ha : a.toNat < 8) (hb : b.toNat < 8) :
    s.aluInstr .unsupported a b = .error .unsupportedOperation :=
  bind_eq_error.mpr <| .inr ⟨_, readReg_eq_ok.mpr ⟨⟨_, ha⟩, rfl, rfl⟩, bind_eq_error.mpr <|
    .inr ⟨_, readReg_eq_ok.mpr ⟨⟨_, hb⟩, rfl, rfl⟩, bind_eq_error.mpr <| .inl rfl⟩⟩

/-- Settles O18: the ALU's answer is raised like any error; no instruction raises anything but `OutOfBounds`, and one that completes
keeps STATUS or halts. -/
theorem unsupportedOperationUnreachable : Obligations.UnsupportedOperationUnreachable := by
  refine ⟨fun _ _ => rfl, fun a b s ha hb => ?_, fun i s t h hs => ?_⟩
  · exact ⟨_, by rw [aluInstr_unsupported ha hb, State.settle], errorEntered_raise _ s⟩
  · obtain rfl | hdone := exec_next_cases h
    · exact nofun
    · obtain ⟨-, hstatus | hstatus⟩ := mem_status_of_completed hdone
      · rwa [hstatus]
      · rw [hstatus]; exact nofun

end Sys2Proof.Machine
end

section
/-! PROOFS. One step and any number of them (O7, O8, O10, O11, O37, O39, O41 to O44, O46, O50): everything a step can do, said
once, and what each of its branches keeps. -/

namespace Sys2Proof.Machine

open Sys2Proof

/-! ### Everything a step can do (40_fetch_decode_dispatch.md R66) -/

/-- A step does nothing, or raises what fetching and decoding raise, or is the meaning of the instruction they give. -/
theorem step_next_cases {s t : State} (h : step s = .next t) :
    (s.status ≠ .running ∧ t = s) ∨
    (s.status = .running ∧ ∃ k, s.fetchDecode = .error k ∧ t = s.raise k) ∨
    (s.status = .running ∧ ∃ i, s.fetchDecode = .ok i ∧ exec i s = .next t) := by
  by_cases hrun : s.status = .running
  · cases hf : s.fetchDecode with
    | error k =>
      rw [step_of_fetchDecode_error hrun hf] at h
      exact .inr (.inl ⟨hrun, k, rfl, (Host.Outcome.next.inj h).symm⟩)
    | ok i => exact .inr (.inr ⟨hrun, i, rfl, (step_of_fetchDecode_ok hrun hf).symm.trans h⟩)
  · rw [step_of_not_running hrun] at h
    exact .inl ⟨hrun, (Host.Outcome.next.inj h).symm⟩

/-- Fetching and decoding raise `UnknownInstruction` or `OutOfBounds` (60_exceptions.md R96, R97). -/
theorem fetchDecode_error_kind {s : State} {k : ErrorKind} (h : s.fetchDecode = .error k) :
    k = .unknownInstruction ∨ k = .outOfBounds := by
  obtain ⟨-, rfl⟩ | ⟨-, r, -, rfl⟩ := fetchDecode_eq_error.mp h
  · exact .inr rfl
  · cases r with
    | unknownInstruction => exact .inl rfl
    | truncated => exact .inr rfl

/-- The same by its effect: a step changes nothing, enters one of two errors, or completes the instruction fetched. -/
theorem step_effect_cases {s t : State} (h : step s = .next t) :
    (s.status ≠ .running ∧ t = s) ∨
    (∃ k, (k = .unknownInstruction ∨ k = .outOfBounds) ∧ t = s.raise k) ∨
    (s.status = .running ∧ ∃ i, s.fetchDecode = .ok i ∧ Completed i s t) := by
  obtain hstop | ⟨-, k, hk, rfl⟩ | ⟨hrun, i, hi, h⟩ := step_next_cases h
  · exact .inl hstop
  · exact .inr (.inl ⟨k, fetchDecode_error_kind hk, rfl⟩)
  · obtain rfl | hdone := exec_next_cases h
    · exact .inr (.inl ⟨_, .inr rfl, rfl⟩)
    · exact .inr (.inr ⟨hrun, i, hi, hdone⟩)

/-- Settles O7: the fetch reads those three bytes, so the step runs what the decoder gives. -/
theorem stepRunsDecodedInstruction : Obligations.StepRunsDecodedInstruction := fun _ _ rest hrun hpc hdecode =>
  step_of_fetchDecode_ok hrun (fetchDecode_eq_ok.mpr ⟨hpc, rest, hdecode⟩)

/-- Settles O8: past 253 the fetch raises before anything is decoded. -/
theorem fetchBoundRaises : Obligations.FetchBoundRaises := fun s hrun hpc =>
  ⟨_, step_of_fetchDecode_error hrun (fetchDecode_eq_error.mpr (.inl ⟨hpc, rfl⟩)), errorEntered_raise _ s⟩

/-- Settles O11: by the law of the step of a machine that does not run. -/
theorem stoppedStepChangesNothing : Obligations.StoppedStepChangesNothing := fun _ => step_of_not_running

/-! ### Unknown opcodes (40_fetch_decode_dispatch.md R63, 30_encoding.md R53) -/

/-- The decoder rejects a string for its opcode byte only when the lookup does not find that byte. -/
theorem lookup_none_of_decode {c : Config} {ir op : Byte} {rest : List Byte}
    (h : decode c (ir :: rest) = .error (.unknownInstruction op)) : c.lookup ir = none := by
  cases hl : c.lookup ir with
  | none => rfl
  | some d =>
    simp only [decode, hl, Descriptor.takeOperands] at h
    split at h <;> cases h

/-- Fetching and decoding raise `UnknownInstruction` only at an opcode byte the lookup does not find. -/
theorem lookup_none_of_fetchDecode {s : State} (h : s.fetchDecode = .error .unknownInstruction) :
    s.cfg.lookup (s.byteAt s.pc.toNat) = none := by
  obtain ⟨-, hk⟩ | ⟨-, r, hd, hk⟩ := fetchDecode_eq_error.mp h
  · cases hk
  · cases r with
    | unknownInstruction op => exact lookup_none_of_decode hd
    | truncated => cases hk

/-- The dispatch table of the default configuration has exactly nine opcode bytes (30_encoding.md R51, R53). -/
theorem default_lookup_eq_none : ∀ b : Byte,
    Config.default.lookup b = none ↔ b ∉ [0x01, 0x47, 0x50, 0x54, 0x55, 0x56, 0x82, 0xA2, 0xA7] := by
  decide

/-- Settles O10: a byte outside the table raises by O9; conversely an instruction raises `OutOfBounds` if anything, so an
`UnknownInstruction` comes from the decoder, whose lookup found nothing. -/
theorem defaultMapUnknownBytes : Obligations.DefaultMapUnknownBytes := by
  intro s hrun hpc hcfg
  rw [← default_lookup_eq_none, ← hcfg]
  refine ⟨fun ⟨t, hstep, hraised⟩ => ?_, fun hnone => unknownOpcodeRaises s hrun hpc (lookup_eq_none.mp hnone)⟩
  have hstatus := hraised.status
  obtain ⟨hstop, -⟩ | ⟨-, k, hk, rfl⟩ | ⟨-, i, -, hexec⟩ := step_next_cases hstep
  · exact absurd hrun hstop
  · cases hstatus
    exact lookup_none_of_fetchDecode hk
  · obtain rfl | hdone := exec_next_cases hexec
    · cases hstatus
    · exact absurd ⟨_, hstatus⟩ (not_failed_of_completed hrun hdone)

/-- Settles O46: the reset state reads 0 at address 0, so this is an unknown opcode (O9). -/
theorem noProgramRaisesUnknown : Obligations.NoProgramRaisesUnknown := fun c h =>
  unknownOpcodeRaises (State.resetWith c) rfl (Nat.zero_le 253) h

/-! ### What an instruction that completes may write (40_fetch_decode_dispatch.md R62) -/

/-- An instruction that completes keeps the configuration, and OUT unless it is a PRN. -/
theorem cfg_out_of_completed {i : Instr} {s t : State} (h : Completed i s t) :
    t.cfg = s.cfg ∧ (t.out = s.out ∨ ∃ a, i = .prn a) := by
  cases i with
  | prn a => obtain ⟨r, -, v, -, rfl⟩ := h; exact ⟨rfl, .inr ⟨a, rfl⟩⟩
  | call a => obtain ⟨r, -, v, -, -, u, rfl, rfl⟩ := h; exact ⟨rfl, .inl rfl⟩
  | hlt => cases h; exact ⟨rfl, .inl rfl⟩
  | ldi a b => obtain ⟨r, -, v, -, rfl⟩ := h; exact ⟨rfl, .inl rfl⟩
  | mul a b => obtain ⟨r, q, -, -, v, -, rfl⟩ := h; exact ⟨rfl, .inl rfl⟩
  | add a b => obtain ⟨r, q, -, -, v, -, rfl⟩ := h; exact ⟨rfl, .inl rfl⟩
  | cmp a b => obtain ⟨r, q, -, -, v, -, rfl⟩ := h; exact ⟨rfl, .inl rfl⟩
  | jmp a => obtain ⟨r, -, rfl⟩ := h; exact ⟨rfl, .inl rfl⟩
  | jeq a => obtain ⟨-, r, -, rfl⟩ | ⟨-, v, -, rfl⟩ := h <;> exact ⟨rfl, .inl rfl⟩
  | jne a => obtain ⟨-, r, -, rfl⟩ | ⟨-, v, -, rfl⟩ := h <;> exact ⟨rfl, .inl rfl⟩
  | ret => obtain ⟨-, rfl⟩ := h; exact ⟨rfl, .inl rfl⟩

/-- Writing a register keeps every register but that one. -/
theorem reg_setReg_eq_or (s : State) (r q : Fin 8) (v : Byte) : (s.setReg r v).reg q = s.reg q ∨ r = q :=
  (ne_or_eq r q).imp_left (s.reg_setReg_other v)

/-- The same of the register an operand byte names. -/
theorem reg_setReg_operand {a : Byte} {r : Fin 8} (hr : a.toNat = r.val) (s : State) (q : Fin 8) (v : Byte) :
    (s.setReg r v).reg q = s.reg q ∨ a.toNat = q.val :=
  (reg_setReg_eq_or s r q v).imp_right fun e => hr.trans (congrArg Fin.val e)

/-- An instruction that completes keeps every register but the one it may write. -/
theorem reg_of_completed {i : Instr} {s t : State} (h : Completed i s t) (q : Fin 8) :
    t.reg q = s.reg q ∨ MayWriteReg i q := by
  cases i with
  | ldi a b => obtain ⟨r, hr, v, -, rfl⟩ := h; exact reg_setReg_operand hr s q _
  | mul a b => obtain ⟨r, -, hr, -, v, -, rfl⟩ := h; exact reg_setReg_operand hr s q _
  | add a b => obtain ⟨r, -, hr, -, v, -, rfl⟩ := h; exact reg_setReg_operand hr s q _
  | call a => obtain ⟨r, -, v, -, -, u, rfl, rfl⟩ := h; exact (reg_setReg_eq_or s spReg q _).imp_right Eq.symm
  | ret => obtain ⟨-, rfl⟩ := h; exact (reg_setReg_eq_or s spReg q _).imp_right Eq.symm
  | prn a => obtain ⟨r, -, v, -, rfl⟩ := h; exact .inl rfl
  | hlt => cases h; exact .inl rfl
  | cmp a b => obtain ⟨r, p, -, -, v, -, rfl⟩ := h; exact .inl rfl
  | jmp a => obtain ⟨r, -, rfl⟩ := h; exact .inl rfl
  | jeq a => obtain ⟨-, r, -, rfl⟩ | ⟨-, v, -, rfl⟩ := h <;> exact .inl rfl
  | jne a => obtain ⟨-, r, -, rfl⟩ | ⟨-, v, -, rfl⟩ := h <;> exact .inl rfl

/-- An instruction that completes keeps every byte of memory, but a CALL the one under the stack pointer. -/
theorem byteAt_of_completed {i : Instr} {s t : State} (hs : s.mem.wf) (h : Completed i s t) (addr : Nat) :
    t.byteAt addr = s.byteAt addr ∨ (∃ a, i = .call a) ∧ addr = (s.reg spReg - 1).toNat := by
  obtain ⟨hmem | ⟨a, rfl⟩, -⟩ := mem_status_of_completed h
  · exact .inl (by rw [State.byteAt, hmem, State.byteAt])
  · obtain ⟨r, v, -, -, -, rfl⟩ := completed_call.mp h
    by_cases ha : addr = (s.reg spReg - 1).toNat
    · exact .inr ⟨⟨a, rfl⟩, ha⟩
    · exact .inl (bytesKeptExcept_pushed v hs addr (by simpa using ha))

/-- Settles O37: an instruction that raises changes STATUS alone, and one that completes by what each part of the state allows. -/
theorem instructionsWriteOnlyTheirState : Obligations.InstructionsWriteOnlyTheirState := by
  intro i s t hs h
  obtain rfl | hdone := exec_next_cases h
  · exact ⟨fun _ hne => absurd rfl hne, fun hne => absurd rfl hne, fun hne => absurd rfl hne, fun _ hne => absurd rfl hne,
      fun _ => .inr ⟨_, errorEntered_raise _ s⟩, rfl⟩
  · obtain ⟨hcfg, hout⟩ := cfg_out_of_completed hdone
    refine ⟨fun q => (reg_of_completed hdone q).resolve_left, fun hne => ?flags, hout.resolve_left,
      fun addr => (byteAt_of_completed hs hdone addr).resolve_left, fun hne => ?status, hcfg⟩
    case flags =>
      by_contra hcmp
      exact hne (exec_keeps_fl (fun a b hi => hcmp ⟨a, b, hi⟩) h)
    case status =>
      by_contra hother
      obtain ⟨hhlt, -⟩ := not_or.mp hother
      exact hne (status_of_completed hhlt hdone)

/-! ### The invariant and the flags (10_state.md R19, R30) -/

/-- An instruction that completes keeps memory canonical: the one write is at a byte's value. -/
theorem mem_wf_of_completed {i : Instr} {s t : State} (hs : s.mem.wf) (h : Completed i s t) : t.mem.wf := by
  obtain ⟨hmem | ⟨a, rfl⟩, -⟩ := mem_status_of_completed h
  · rwa [hmem]
  · obtain ⟨r, v, -, -, -, rfl⟩ := completed_call.mp h
    exact Memory.wf_writeByte hs (toNat_lt_memSize _) v

/-- A running machine is left running or halted by an instruction that completes. -/
theorem status_possible_of_completed {i : Instr} {s t : State} (hrun : s.status = .running) (h : Completed i s t) :
    t.status.possible := by
  obtain ⟨-, hstatus | hstatus⟩ := mem_status_of_completed h
  · rw [hstatus, hrun]; trivial
  · rw [hstatus]; trivial

/-- Settles O50: a raise writes STATUS alone, with a kind a step can raise; a completion keeps each part of the invariant. -/
theorem stepKeepsInvariant : Obligations.StepKeepsInvariant := by
  intro c s t hs h
  obtain ⟨-, rfl⟩ | ⟨k, hk, rfl⟩ | ⟨hrun, i, -, hdone⟩ := step_effect_cases h
  · exact hs
  · have hpossible : (Status.error k).possible := by obtain rfl | rfl := hk <;> trivial
    exact ⟨hs.mem, hpossible, hs.cfg, hs.table⟩
  · exact ⟨mem_wf_of_completed hs.mem hdone, status_possible_of_completed hrun hdone,
      (cfg_out_of_completed hdone).1.trans hs.cfg, hs.table⟩

/-- A step keeps the flags or leaves an outcome in them. -/
theorem step_keeps_fl_ne_unset {s t : State} (h : step s = .next t) (hs : s.fl ≠ .unset) : t.fl ≠ .unset := by
  obtain ⟨-, rfl⟩ | ⟨k, -, rfl⟩ | ⟨-, i, -, hdone⟩ := step_effect_cases h
  · exact hs
  · exact hs
  · by_cases hcmp : ∃ a b, i = .cmp a b
    · obtain ⟨a, b, rfl⟩ := hcmp
      obtain ⟨r, q, -, -, v, -, rfl⟩ := hdone
      exact compareFlag_ne_unset _ _
    · rwa [exec_keeps_fl (fun a b hi => hcmp ⟨a, b, hi⟩) (exec_of_completed hdone)]

/-! ### How a step ends a run (60_exceptions.md R103, 70_reset_and_hazards.md R128) -/

/-- Settles O41: a completed instruction does not fail a running machine, so the error was raised by fetching, decoding or the
instruction, each of which writes STATUS alone. -/
theorem errorsArePrecise : Obligations.ErrorsArePrecise := by
  intro s t hrun h hfailed
  obtain ⟨hstop, -⟩ | ⟨k, hk, rfl⟩ | ⟨-, i, -, hdone⟩ := step_effect_cases h
  · exact absurd hrun hstop
  · obtain rfl | rfl := hk
    · exact .inl (errorEntered_raise _ s)
    · exact .inr (errorEntered_raise _ s)
  · exact absurd hfailed (not_failed_of_completed hrun hdone)

/-- Settles O42: a raise leaves an error, and of the instructions that complete HLT alone writes STATUS. -/
theorem onlyHltSucceeds : Obligations.OnlyHltSucceeds := by
  intro s t hrun h hhalted
  obtain ⟨hstop, -⟩ | ⟨k, -, rfl⟩ | ⟨-, i, hi, hdone⟩ := step_effect_cases h
  · exact absurd hrun hstop
  · exact Status.noConfusion hhalted
  · by_cases hhlt : i = .hlt
    · subst hhlt
      cases hdone
      exact ⟨hi, rfl, rfl, rfl, fun _ _ => rfl, fun _ _ => rfl⟩
    · have hkept : t.status = s.status := status_of_completed hhlt hdone
      exact Status.noConfusion (hrun.symm.trans (hkept.symm.trans hhalted))

/-! ### Any number of steps -/

/-- The first of several steps. -/
theorem stepTimes_succ {s u : State} (h : step s = .next u) (n : Nat) : stepTimes (n + 1) s = stepTimes n u := by
  rw [stepTimes, h]

/-- What every step keeps is kept by any number of steps. -/
theorem stepTimes_keeps {P : State → Prop} (hstep : ∀ s t, step s = .next t → P s → P t) {n : Nat} {s t : State}
    (h : stepTimes n s = .next t) (hs : P s) : P t := by
  induction n generalizing s with
  | zero => cases h; exact hs
  | succ n ih =>
    obtain ⟨u, hu⟩ := step_total s
    rw [stepTimes_succ hu] at h
    exact ih h (hstep s u hu hs)

/-- Settles O39: one step keeps it, so any number of steps does. -/
theorem comparedFlagsStayCompared : Obligations.ComparedFlagsStayCompared := fun _ _ _ h hs =>
  stepTimes_keeps (P := fun s => s.fl ≠ .unset) (fun _ _ => step_keeps_fl_ne_unset) h hs

/-- Steps after steps. -/
theorem stepTimes_add {n : Nat} {s t : State} (h : stepTimes n s = .next t) (m : Nat) :
    stepTimes (n + m) s = stepTimes m t := by
  induction n generalizing s with
  | zero => cases h; rw [Nat.zero_add]
  | succ n ih =>
    obtain ⟨u, hu⟩ := step_total s
    rw [stepTimes_succ hu] at h
    rw [Nat.succ_add, stepTimes_succ hu, ih h]

/-- Settles O43: the further steps start at a stopped machine, which steps to itself. -/
theorem stoppedMachineStaysStopped : Obligations.StoppedMachineStaysStopped := by
  intro n m s t h hstop
  rw [stepTimes_add h]
  exact stepTimes_of_step_self (step_of_not_running hstop) m

/-- A run of a machine that does not run is over at once. -/
theorem run_of_not_running {s : State} (h : s.status ≠ .running) (n : Nat) : State.run n s = .next s := by
  cases n with
  | zero => rfl
  | succ n => rw [State.run, if_neg (mt isRunning_iff.mp h)]

/-- A run of a machine that runs goes on from its next state. -/
theorem run_succ {s u : State} (hrun : s.status = .running) (h : step s = .next u) (n : Nat) :
    State.run (n + 1) s = State.run n u := by
  rw [State.run, if_pos (isRunning_iff.mpr hrun), h]

/-- Settles O44, by induction on the fuel: a stopped machine is where the run ends, with no step; a running one takes one step,
and the run from there is one step shorter. -/
theorem runRepeatsStepUntilStopped : Obligations.RunRepeatsStepUntilStopped := by
  intro n
  induction n with
  | zero => exact fun s => ⟨0, s, le_rfl, rfl, rfl, .inr rfl, fun _ _ hj => absurd hj (Nat.not_lt_zero _)⟩
  | succ n ih =>
    intro s
    by_cases hrun : s.status = .running
    · obtain ⟨u, hu⟩ := step_total s
      obtain ⟨k, t, hk, hrunt, hsteps, hend, hbefore⟩ := ih u
      refine ⟨k + 1, t, Nat.succ_le_succ hk, (run_succ hrun hu n).trans hrunt, (stepTimes_succ hu k).trans hsteps,
        hend.imp_right (congrArg (· + 1)), fun j v hj hv => ?_⟩
      cases j with
      | zero => cases hv; exact hrun
      | succ j => exact hbefore j v (Nat.lt_of_succ_lt_succ hj) ((stepTimes_succ hu j).symm.trans hv)
    · exact ⟨0, s, Nat.zero_le _, run_of_not_running hrun _, rfl, .inl hrun, fun _ _ hj => absurd hj (Nat.not_lt_zero _)⟩

end Sys2Proof.Machine
end

section
/-! PROOFS. Bytes placed or pushed in memory and then fetched (O6, O30), and where nothing follows (O31). -/

namespace Sys2Proof

/-- The default opcode bytes are all different, so every machine that uses them is well formed. -/
theorem Config.wf_of_opcodes_default {c : Config} (h : c.opcodes = OpcodeMap.default) : c.wf := by
  have hall : (Mnemonic.all.map OpcodeMap.default.byte).Nodup := by decide
  rw [Config.wf, h]
  exact hall.sublist (List.filter_sublist.map _)

end Sys2Proof

namespace Sys2Proof.Machine

open Sys2Proof

/-! ### A word placed where the next step fetches it (logs 5 and 7) -/

/-- The placed bytes can be fetched: `pc` is at most 253. -/
theorem placeTableWord_pc_le (s : State) (bytes : List Byte) : (s.placeTableWord bytes).pc.toNat ≤ 253 := by
  simp only [State.placeTableWord]
  split
  · assumption
  · decide

/-- Three bytes placed are the three bytes fetched. -/
theorem fetched_placeTableWord {s : State} (hs : s.mem.wf) (b₀ b₁ b₂ : Byte) :
    (s.placeTableWord [b₀, b₁, b₂]).fetched = [b₀, b₁, b₂] := by
  have hpc := placeTableWord_pc_le s [b₀, b₁, b₂]
  have hmem : (s.placeTableWord [b₀, b₁, b₂]).mem =
      s.mem.writeBytes (s.placeTableWord [b₀, b₁, b₂]).pc.toNat [b₀, b₁, b₂] := rfl
  have hfits : (s.placeTableWord [b₀, b₁, b₂]).pc.toNat + [b₀, b₁, b₂].length ≤ memSize := by
    simp only [List.length_cons, List.length_nil, memSize]; omega
  simp [State.fetched, State.byteAt, hmem, Memory.readByte_writeBytes hs hfits]

/-- The machine a word is placed in has the instruction whose default opcode byte the word starts with. -/
theorem implements_placeTableWord (s : State) (m : Mnemonic) (bytes : List Byte) :
    (s.placeTableWord (OpcodeMap.default.byte m :: bytes)).cfg.implements m = true := by
  cases m with
  | add => exact Bool.or_true _
  | ret => exact Bool.or_true _
  | ldi | prn | hlt | mul | cmp | call | jmp | jeq | jne => rfl

/-- The decoder reads from a table word the instruction whose bytes, under the default map, the word starts with. -/
theorem tableBytes_of_decodeTableWord {nbits w : Nat} {i : Instr} (h : decodeTableWord nbits w = some i) :
    ∃ rest, tableBytes nbits w = encode Config.withOptions i ++ rest := by
  simp only [decodeTableWord] at h
  split at h
  · next rest hdecode =>
    cases h
    exact ⟨rest, (decode_eq_ok.mp hdecode).2⟩
  · cases h

/-- Settles O6: the placed machine fetches the word, its opcode map is the word's, and it has the word's instruction. -/
theorem placedTableWordRunsNext : Obligations.PlacedTableWordRunsNext := by
  intro s nbits w i hs h
  obtain ⟨rest, hbytes⟩ := tableBytes_of_decodeTableWord h
  have hfetched : (s.withFetchWord nbits w).fetched = encode (s.withFetchWord nbits w).cfg i ++ rest :=
    (fetched_placeTableWord hs ..).trans hbytes
  have hhas : i.wf (s.withFetchWord nbits w).cfg := by
    rw [State.withFetchWord, hbytes]
    exact implements_placeTableWord s i.mnemonic _
  have hdecode := decode_encode_append (Config.wf_of_opcodes_default rfl) hhas rest
  rw [← hfetched] at hdecode
  exact step_of_fetchDecode_ok rfl (fetchDecode_eq_ok.mpr ⟨placeTableWord_pc_le s _, rest, hdecode⟩)

/-! ### A byte pushed and then fetched (20_memory.md R43) -/

/-- The bytes fetched, one at a time. -/
theorem getElem?_fetched (s : State) {k : Nat} (h : k < 3) : s.fetched[k]? = some (s.byteAt (s.pc.toNat + k)) := by
  match k, h with
  | 0, _ | 1, _ | 2, _ => rfl

/-- Settles O30: the fetch after the CALL reads the memory the push left. -/
theorem pushedByteIsFetchedNext : Obligations.PushedByteIsFetchedNext := by
  intro a s t bs hs _ _ hcall hrun hfetch k hk
  obtain rfl | hdone := exec_next_cases hcall
  · exact Status.noConfusion hrun
  · obtain ⟨r, v, -, hv, -, rfl⟩ := completed_call.mp hdone
    obtain ⟨-, rfl⟩ := fetch_eq_ok.mp hfetch
    rw [getElem?_fetched _ hk, Option.map_some, State.setPc_byteAt, State.byteAt_pushed v hs, apply_ite BitVec.toNat, hv,
      State.setPc_reg, State.pushed_reg_sp]
    simp only [eq_comm]

/-! ### No successor (40_fetch_decode_dispatch.md R65, log 6) -/

/-- Past 253 no byte is the address two further on. -/
theorem toNat_ne_add_two {n : Nat} (h : 253 < n) (v : Byte) : v.toNat ≠ n + 2 := by
  have := v.isLt
  omega

/-- Settles O31: each of the four completes only with a byte for the address two further on, and there is none. -/
theorem noSuccessorPastMemory : Obligations.NoSuccessorPastMemory := by
  intro a s hpc
  have hnone := toNat_ne_add_two hpc
  refine ⟨raises_of_not_completed ?prn, raises_of_not_completed ?call, fun hfl => raises_of_not_completed ?jeq,
    fun hfl => raises_of_not_completed ?jne⟩
  case prn => rintro t ⟨-, -, v, hv, -⟩; exact hnone v hv
  case call => rintro t ⟨-, -, v, hv, -⟩; exact hnone v hv
  case jeq =>
    rintro t (⟨heq, -⟩ | ⟨-, v, hv, -⟩)
    · exact hfl heq
    · exact hnone v hv
  case jne =>
    rintro t (⟨hne, -⟩ | ⟨-, v, hv, -⟩)
    · exact hne hfl
    · exact hnone v hv

end Sys2Proof.Machine
end

section
/-! PROOFS. What a step does not read: OUT and the parameters of the sink and of reset (O40, O57), and the bytes of memory outside
the instruction and the popped cell (O5). -/

namespace Sys2Proof.Machine

open Sys2Proof

/-- An instruction completes, or it cannot complete and raises. -/
theorem exec_completes_or_raises (i : Instr) (s : State) :
    (∃ t, Completed i s t ∧ exec i s = .next t) ∨
    ((∀ t, ¬ Completed i s t) ∧ exec i s = .next (s.raise .outOfBounds)) := by
  by_cases h : ∃ t, Completed i s t
  · obtain ⟨t, hdone⟩ := h
    exact .inl ⟨t, hdone, exec_of_completed hdone⟩
  · obtain ⟨t, ht⟩ := settle_next s (attempt i s)
    rw [← exec_eq_settle] at ht
    obtain rfl | hdone := exec_next_cases ht
    · exact .inr ⟨not_exists.mp h, ht⟩
    · exact absurd ⟨t, hdone⟩ h

/-- An instruction that cannot complete raises. -/
theorem exec_of_not_completed {i : Instr} {s : State} (h : ∀ t, ¬ Completed i s t) :
    exec i s = .next (s.raise .outOfBounds) := by
  obtain ⟨t, hdone, -⟩ | ⟨-, hexec⟩ := exec_completes_or_raises i s
  · exact absurd hdone (h t)
  · exact hexec

/-! ### OUT and the configuration -/

/-- The state with other values of OUT and the configuration. -/
def State.withOutCfg (s : State) (o : List Byte) (c : Config) : State := { s with out := o, cfg := c }

/-- An instruction that neither prints nor calls completes alike whatever OUT, the configuration and, but for the byte a RET pops,
the memory are, and carries them along. -/
theorem completed_elsewhere {i : Instr} {s t : State} {m : Memory} (hprn : ¬ ∃ a, i = .prn a) (hcall : ¬ ∃ a, i = .call a)
    (hret : i = .ret → m.readByte (s.reg spReg).toNat = s.byteAt (s.reg spReg).toNat) (o : List Byte) (c : Config)
    (h : Completed i s t) : Completed i ((s.setMem m).withOutCfg o c) ((t.setMem m).withOutCfg o c) := by
  cases i with
  | prn a => exact absurd ⟨a, rfl⟩ hprn
  | call a => exact absurd ⟨a, rfl⟩ hcall
  | ret =>
    obtain ⟨h255, rfl⟩ := h
    rw [← hret rfl]
    exact ⟨h255, rfl⟩
  | ldi a b => obtain ⟨r, hr, v, hv, rfl⟩ := h; exact ⟨r, hr, v, hv, rfl⟩
  | hlt => cases h; rfl
  | mul a b => obtain ⟨r, q, hr, hq, v, hv, rfl⟩ := h; exact ⟨r, q, hr, hq, v, hv, rfl⟩
  | add a b => obtain ⟨r, q, hr, hq, v, hv, rfl⟩ := h; exact ⟨r, q, hr, hq, v, hv, rfl⟩
  | cmp a b => obtain ⟨r, q, hr, hq, v, hv, rfl⟩ := h; exact ⟨r, q, hr, hq, v, hv, rfl⟩
  | jmp a => obtain ⟨r, hr, rfl⟩ := h; exact ⟨r, hr, rfl⟩
  | jeq a =>
    obtain ⟨hf, r, hr, rfl⟩ | ⟨hf, v, hv, rfl⟩ := h
    · exact .inl ⟨hf, r, hr, rfl⟩
    · exact .inr ⟨hf, v, hv, rfl⟩
  | jne a =>
    obtain ⟨hf, r, hr, rfl⟩ | ⟨hf, v, hv, rfl⟩ := h
    · exact .inl ⟨hf, r, hr, rfl⟩
    · exact .inr ⟨hf, v, hv, rfl⟩

/-- An instruction other than PRN completes alike whatever OUT and the configuration are. -/
theorem completed_withOutCfg {i : Instr} {s t : State} (hprn : ¬ ∃ a, i = .prn a) (o : List Byte) (c : Config)
    (h : Completed i s t) : Completed i (s.withOutCfg o c) (t.withOutCfg o c) := by
  by_cases hcall : ∃ a, i = .call a
  · obtain ⟨a, rfl⟩ := hcall
    obtain ⟨r, v, hr, hv, h0, rfl⟩ := completed_call.mp h
    exact completed_call.mpr ⟨r, v, hr, hv, h0, rfl⟩
  · have hmem : t.mem = s.mem := (mem_status_of_completed h).1.resolve_right hcall
    have ht : t.setMem s.mem = t := by rw [← hmem]; rfl
    have hdone := completed_elsewhere (m := s.mem) hprn hcall (fun _ => rfl) o c h
    rw [ht] at hdone
    exact hdone

/-- Every instruction that completes appends at most one value to OUT, and completes with the same values appended whatever OUT
and the configuration are. -/
theorem completed_appends {i : Instr} {s t : State} (h : Completed i s t) :
    ∃ l : List Byte, l.length ≤ 1 ∧ t.out = s.out ++ l ∧
      ∀ o c, Completed i (s.withOutCfg o c) (t.withOutCfg (o ++ l) c) := by
  by_cases hprn : ∃ a, i = .prn a
  · obtain ⟨a, rfl⟩ := hprn
    obtain ⟨r, hr, v, hv, rfl⟩ := h
    exact ⟨[s.reg r], le_rfl, rfl, fun o c => ⟨r, hr, v, hv, rfl⟩⟩
  · have hout : t.out = s.out := (cfg_out_of_completed h).2.resolve_right hprn
    refine ⟨[], Nat.zero_le 1, by rw [List.append_nil, hout], fun o c => ?_⟩
    rw [List.append_nil]
    exact completed_withOutCfg hprn o c h

/-- The same of every instruction: one that raises appends nothing, and raises whatever OUT and the configuration are, since
otherwise it would complete with the old ones too. -/
theorem exec_appends {i : Instr} {s t : State} (h : exec i s = .next t) :
    ∃ l : List Byte, l.length ≤ 1 ∧ t.out = s.out ++ l ∧
      ∀ o c, exec i (s.withOutCfg o c) = .next (t.withOutCfg (o ++ l) c) := by
  obtain ⟨u, hdone, hu⟩ | ⟨hnone, hraise⟩ := exec_completes_or_raises i s
  · obtain rfl : t = u := Host.Outcome.next.inj (h.symm.trans hu)
    obtain ⟨l, hl, hout, hall⟩ := completed_appends hdone
    exact ⟨l, hl, hout, fun o c => exec_of_completed (hall o c)⟩
  · obtain rfl : t = s.raise .outOfBounds := Host.Outcome.next.inj (h.symm.trans hraise)
    refine ⟨[], Nat.zero_le 1, (List.append_nil _).symm, fun o c => ?_⟩
    rw [List.append_nil]
    refine exec_of_not_completed fun u hdone => ?_
    obtain ⟨l, -, -, hback⟩ := completed_appends hdone
    exact hnone _ (hback s.out s.cfg)

/-- The same of a step, for any configuration that decodes alike. -/
theorem step_appends {s t : State} (h : step s = .next t) :
    ∃ l : List Byte, l.length ≤ 1 ∧ t.out = s.out ++ l ∧
      ∀ o c, decode c = decode s.cfg → step (s.withOutCfg o c) = .next (t.withOutCfg (o ++ l) c) := by
  have hfetch (o : List Byte) (c : Config) (hc : decode c = decode s.cfg) :
      (s.withOutCfg o c).fetchDecode = s.fetchDecode := by
    have hbytes : (s.withOutCfg o c).fetch = s.fetch := rfl
    have hcfg : (s.withOutCfg o c).cfg = c := rfl
    rw [State.fetchDecode, hbytes, hcfg, hc, State.fetchDecode]
  obtain ⟨hstop, rfl⟩ | ⟨hrun, k, hk, rfl⟩ | ⟨hrun, i, hi, hexec⟩ := step_next_cases h
  · refine ⟨[], Nat.zero_le 1, (List.append_nil _).symm, fun o c _ => ?_⟩
    rw [List.append_nil]
    exact step_of_not_running hstop
  · refine ⟨[], Nat.zero_le 1, (List.append_nil _).symm, fun o c hc => ?_⟩
    rw [List.append_nil]
    exact step_of_fetchDecode_error hrun ((hfetch o c hc).trans hk)
  · obtain ⟨l, hl, hout, hall⟩ := exec_appends hexec
    refine ⟨l, hl, hout, fun o c hc => ?_⟩
    rw [step_of_fetchDecode_ok (s := s.withOutCfg o c) hrun ((hfetch o c hc).trans hi)]
    exact hall o c

/-- A step keeps the configuration (10_state.md R28). -/
theorem step_keeps_cfg {s t : State} (h : step s = .next t) : t.cfg = s.cfg := by
  obtain ⟨-, rfl⟩ | ⟨k, -, rfl⟩ | ⟨-, i, -, hdone⟩ := step_effect_cases h
  · rfl
  · rfl
  · exact (cfg_out_of_completed hdone).1

/-- Settles O40: with the configuration as it is. -/
theorem outputGrowsAndIsNeverRead : Obligations.OutputGrowsAndIsNeverRead := by
  intro s t o h
  obtain ⟨l, hl, hout, hall⟩ := step_appends h
  have ht : { t with out := o ++ l } = t.withOutCfg (o ++ l) s.cfg := by rw [← step_keeps_cfg h]; rfl
  refine ⟨l, hl, hout, ?_⟩
  rw [ht]
  exact hall o s.cfg rfl

/-- Settles O57: with OUT as it is; the decoder reads the opcode map and the two options only. -/
theorem stepReadsNoSinkOrResetParameter : Obligations.StepReadsNoSinkOrResetParameter := by
  intro s t sp sep h
  obtain ⟨l, -, hout, hall⟩ := step_appends h
  have hstep := hall s.out { s.cfg with spInit := sp, outSeparator := sep } rfl
  rw [← hout] at hstep
  rw [step_keeps_cfg h]
  exact hstep

/-! ### Memory outside the instruction (40_fetch_decode_dispatch.md R71) -/

/-- Whatever decodes is decoded from any other bytes that start alike, as far as the instruction reaches. -/
theorem decode_of_take_eq {c : Config} {bs bs' rest : List Byte} {i : Instr} (h : decode c bs = .ok (i, rest))
    (heq : bs'.take i.length = bs.take i.length) : decode c bs' = .ok (i, bs'.drop i.length) := by
  obtain ⟨hl, rfl⟩ := decode_eq_ok.mp h
  have htake : bs'.take i.length = encode c i := by rw [heq, ← encode_length c i, List.take_left]
  exact decode_eq_ok.mpr ⟨hl, by rw [← htake, List.take_append_drop]⟩

/-- No instruction is longer than what is fetched (30_encoding.md R46). -/
theorem length_le_three (i : Instr) : i.length ≤ 3 := by
  have hformat (f : Format) : f.length ≤ 3 := by cases f <;> decide
  exact hformat _

/-- Another memory that has the instruction's own bytes gives the same instruction. -/
theorem fetchDecode_setMem {s : State} {m : Memory} {i : Instr} (h : s.fetchDecode = .ok i)
    (heq : ∀ k, k < i.length → m.readByte (s.pc.toNat + k) = s.byteAt (s.pc.toNat + k)) :
    (s.setMem m).fetchDecode = .ok i := by
  obtain ⟨hpc, rest, hdecode⟩ := fetchDecode_eq_ok.mp h
  refine fetchDecode_eq_ok.mpr ⟨hpc, _, decode_of_take_eq hdecode (List.ext_getElem? fun k => ?_)⟩
  simp only [List.getElem?_take]
  split
  · next hk =>
    have hk3 : k < 3 := hk.trans_le (length_le_three i)
    rw [getElem?_fetched _ hk3, getElem?_fetched _ hk3, State.setMem_byteAt, State.setMem_pc, heq k hk]
  · rfl

/-- What a step leaves in two machines that differed in memory alone, the second holding `m`: they still do, and each byte is the
same in both or in each what it was. -/
def DifferOnlyWhereTheyDid (s : State) (m : Memory) (t u : State) : Prop :=
  u.setMem t.mem = t ∧
    ∀ addr, u.byteAt addr = t.byteAt addr ∨ (t.byteAt addr = s.byteAt addr ∧ u.byteAt addr = m.readByte addr)

section

variable {s t : State} {m : Memory} {i : Instr}

/-- An instruction other than CALL completes alike in another memory that has the byte a RET pops, and carries it along. -/
theorem completed_setMem_of_not_call (hcall : ¬ ∃ a, i = .call a)
    (hret : i = .ret → m.readByte (s.reg spReg).toNat = s.byteAt (s.reg spReg).toNat) (h : Completed i s t) :
    Completed i (s.setMem m) (t.setMem m) := by
  by_cases hprn : ∃ a, i = .prn a
  · obtain ⟨a, rfl⟩ := hprn
    obtain ⟨r, hr, v, hv, rfl⟩ := h
    exact ⟨r, hr, v, hv, rfl⟩
  · obtain ⟨hcfg, hout⟩ := cfg_out_of_completed h
    have ht : (t.setMem m).withOutCfg s.out s.cfg = t.setMem m := by rw [← hcfg, ← hout.resolve_right hprn]; rfl
    have hdone := completed_elsewhere hprn hcall hret s.out s.cfg h
    rw [ht] at hdone
    exact hdone

/-- Every instruction that completes does so in such a memory too; a CALL writes the same byte in both. -/
theorem completed_setMem (hs : s.mem.wf) (hm : m.wf)
    (hret : i = .ret → m.readByte (s.reg spReg).toNat = s.byteAt (s.reg spReg).toNat) (h : Completed i s t) :
    ∃ u, Completed i (s.setMem m) u ∧ DifferOnlyWhereTheyDid s m t u := by
  by_cases hi : ∃ a, i = .call a
  · obtain ⟨a, rfl⟩ := hi
    obtain ⟨r, v, hr, hv, h0, rfl⟩ := completed_call.mp h
    refine ⟨_, completed_call.mpr ⟨r, v, hr, hv, h0, rfl⟩, rfl, fun addr => ?_⟩
    have hms : (s.setMem m).mem.wf := hm
    simp only [State.setPc_byteAt, State.byteAt_pushed v hs, State.byteAt_pushed v hms, State.setMem_reg, State.setMem_byteAt]
    by_cases ha : (s.reg spReg - 1).toNat = addr
    · exact .inl ((if_pos ha).trans (if_pos ha).symm)
    · exact .inr ⟨if_neg ha, if_neg ha⟩
  · have hmem : t.mem = s.mem := (mem_status_of_completed h).1.resolve_right hi
    exact ⟨t.setMem m, completed_setMem_of_not_call hi hret h, rfl,
      fun _ => .inr ⟨by rw [State.byteAt, hmem, State.byteAt], rfl⟩⟩

/-- The same of every instruction: one that raises does so in both, since a completion in the one memory is one in the other. -/
theorem exec_setMem (hs : s.mem.wf) (hm : m.wf)
    (hret : i = .ret → m.readByte (s.reg spReg).toNat = s.byteAt (s.reg spReg).toNat) :
    ∃ t u, exec i s = .next t ∧ exec i (s.setMem m) = .next u ∧ DifferOnlyWhereTheyDid s m t u := by
  obtain ⟨t, hdone, ht⟩ | ⟨hnone, ht⟩ := exec_completes_or_raises i s
  · obtain ⟨u, hu, hdiffer⟩ := completed_setMem hs hm hret hdone
    exact ⟨t, u, ht, exec_of_completed hu, hdiffer⟩
  · have hnone' : ∀ u, ¬ Completed i (s.setMem m) u := by
      intro u hu
      obtain ⟨v, hv, -⟩ := completed_setMem (s := s.setMem m) (m := s.mem) hm hs (fun hi => (hret hi).symm) hu
      exact hnone v hv
    exact ⟨_, _, ht, exec_of_not_completed hnone', rfl, fun _ => .inr ⟨rfl, rfl⟩⟩

end

/-- Settles O5: the decoder reads no further than the instruction, so both machines run it; what it leaves is compared by its
completion. -/
theorem bytesAfterInstructionIgnored : Obligations.BytesAfterInstructionIgnored := by
  intro s m i hrun hfetch heq
  have hstep : step s = exec i s := step_of_fetchDecode_ok hrun hfetch
  have hstep' : step (s.setMem m) = exec i (s.setMem m) := step_of_fetchDecode_ok hrun (fetchDecode_setMem hfetch heq)
  refine ⟨hstep, hstep', fun hs hm hret => ?_⟩
  rw [hstep, hstep']
  exact exec_setMem hs hm hret

end Sys2Proof.Machine
end

section
/-! PROOFS. The host's operations (O45, O49, O51 to O56): reset, the one load, what every operation keeps, and the ports. -/

namespace Sys2Proof.Machine

open Sys2Proof

/-! ### Reset (10_state.md R29, 70_reset_and_hazards.md R113) -/

/-- The general registers after reset. -/
theorem reg_resetWith (c : Config) (r : Fin 8) : (State.resetWith c).reg r = if r = spReg then c.spInit else 0 := by
  fin_cases r <;> rfl

/-- Settles O45: a reset is the construction again, and each field of it is the one stated. -/
theorem resetGivesSpecValues : Obligations.ResetGivesSpecValues := by
  refine ⟨fun c h hc => ?_, rfl, rfl⟩
  rw [serve_reset, hc]
  exact ⟨rfl, rfl, reg_resetWith c, rfl, rfl, rfl, fun _ => rfl, rfl⟩

/-- The reset state meets the invariant of a configuration with an injective opcode map. -/
theorem resetWith_inv {c : Config} (hc : c.wf) : (State.resetWith c).Inv c := ⟨Memory.wf_nil, trivial, rfl, hc⟩

/-- Settles O51: the empty memory is canonical, and the default map is injective. -/
theorem resetMeetsInvariant : Obligations.ResetMeetsInvariant :=
  ⟨fun _ => resetWith_inv, resetWith_inv (Config.wf_of_opcodes_default rfl)⟩

/-! ### The one load (70_reset_and_hazards.md R118, the spec's decision D14, log 9) -/

/-- A session in which no load is allowed before the next reset. -/
def Session.Spent (h : Session) : Prop := h.unused = false ∨ h.machine ≠ State.resetWith h.machine.cfg

/-- A spent session refuses every load and stays as it is. -/
theorem serve_load_of_spent {h : Session} (hs : h.Spent) (bytes : List Byte) :
    h.serve (.load bytes) = (h, .turnedDown .loadAfterReset) := by
  have hrefused : h.load bytes = .refused .loadAfterReset := by
    refine if_neg fun ⟨hu, hm⟩ => ?_
    obtain hs | hs := hs
    · exact Bool.noConfusion (hs.symm.trans hu)
    · exact hs hm
  simp only [Session.serve, hrefused, Session.answer]

/-- A session that is not spent is unused and in its reset state. -/
theorem unused_of_not_spent {h : Session} (hs : ¬ h.Spent) : h.unused = true ∧ h.machine = h.machine.resetAgain := by
  obtain ⟨hu, hm⟩ := not_or.mp hs
  exact ⟨Bool.eq_true_of_not_eq_false hu, not_not.mp hm⟩

/-- Settles O49: such a session is spent. -/
theorem lateLoadIsRefused : Obligations.LateLoadIsRefused := fun _ bytes hs => serve_load_of_spent hs bytes

/-- What any load leaves: the session as it was, or the machine with bytes that fit written in a session that is used now. -/
theorem serve_load_cases (h : Session) (bytes : List Byte) :
    (h.serve (.load bytes)).1 = h ∨
    (bytes.length ≤ memSize ∧
      (h.serve (.load bytes)).1 = ⟨h.machine.setMem (h.machine.mem.writeBytes loadBase bytes), false⟩) := by
  by_cases hs : h.Spent
  · exact .inl (by rw [serve_load_of_spent hs])
  · obtain ⟨hu, hm⟩ := unused_of_not_spent hs
    obtain ⟨hfits, hserve⟩ | ⟨-, hserve⟩ := serve_load_of_unused (bytes := bytes) hu hm
    · exact .inr ⟨hfits, by rw [hserve]⟩
    · exact .inl (by rw [hserve])

/-- A step spends the session. -/
theorem spent_serve_step (h : Session) : (h.serve .step).1.Spent := by
  obtain ⟨t, ht⟩ := step_total h.machine
  rw [serve_step ht]
  exact .inl rfl

/-- A run with fuel spends the session. -/
theorem spent_serve_run_succ (h : Session) (n : Nat) : (h.serve (.run (n + 1))).1.Spent := by
  obtain ⟨t, ht⟩ := run_total (n + 1) h.machine
  rw [serve_run ht]
  exact .inl (Bool.and_false _)

/-- A load that is not too large spends the session, if it was not spent already. -/
theorem spent_serve_load (h : Session) {bytes : List Byte} (hfits : bytes.length ≤ memSize) :
    (h.serve (.load bytes)).1.Spent := by
  by_cases hs : h.Spent
  · rwa [serve_load_of_spent hs]
  · obtain ⟨hu, hm⟩ := unused_of_not_spent hs
    obtain ⟨-, hserve⟩ | ⟨hbig, -⟩ := serve_load_of_unused (bytes := bytes) hu hm
    · rw [hserve]; exact .inl rfl
    · exact absurd hfits hbig.not_ge

/-- A spent session stays spent until a reset; a run without fuel changes nothing. -/
theorem spent_serve {h : Session} (hs : h.Spent) {req : Request} (hreq : req ≠ .reset) : (h.serve req).1.Spent := by
  cases req with
  | reset => exact absurd rfl hreq
  | load bytes => rwa [serve_load_of_spent hs]
  | step => exact spent_serve_step h
  | run n =>
    cases n with
    | zero => rw [serve_run rfl]; exact hs.imp_left fun hu => by simp [hu]
    | succ n => exact spent_serve_run_succ h n

theorem spent_serveAll {h : Session} (hs : h.Spent) {reqs : List Request} (hreqs : .reset ∉ reqs) :
    (h.serveAll reqs).Spent := by
  induction reqs generalizing h with
  | nil => exact hs
  | cons req reqs ih =>
    obtain ⟨hreq, hreqs⟩ := not_or.mp (mt List.mem_cons.mpr hreqs)
    exact ih (spent_serve hs (Ne.symm hreq)) hreqs

/-- Settles O55: each of the three requests spends the session, and no later request but a reset undoes that. -/
theorem loadIsOnceAndBeforeFirstStep : Obligations.LoadIsOnceAndBeforeFirstStep := by
  intro h req reqs bytes hreq hreqs
  have hspent : (h.serve req).1.Spent := by
    obtain rfl | ⟨n, rfl⟩ | ⟨bs, rfl, hfits⟩ := hreq
    · exact spent_serve_step h
    · exact spent_serve_run_succ h n
    · exact spent_serve_load h hfits
  exact serve_load_of_spent (spent_serveAll hspent hreqs) bytes

/-! ### What every operation keeps (10_state.md R28, R30) -/

/-- What every step keeps is kept by a run of any length. -/
theorem run_keeps {P : State → Prop} (hstep : ∀ s t, step s = .next t → P s → P t) {n : Nat} {s t : State}
    (h : State.run n s = .next t) (hs : P s) : P t := by
  obtain ⟨k, u, -, hrun, hsteps, -⟩ := runRepeatsStepUntilStopped n s
  obtain rfl : u = t := Host.Outcome.next.inj (hrun.symm.trans h)
  exact stepTimes_keeps hstep hsteps hs

/-- Bytes that fit, written into a canonical memory from the load address, keep the invariant. -/
theorem inv_setMem_writeBytes {c : Config} {s : State} {bytes : List Byte} (hs : s.Inv c) (hfits : bytes.length ≤ memSize) :
    (s.setMem (s.mem.writeBytes loadBase bytes)).Inv c :=
  ⟨Memory.wf_writeBytes hs.mem ((Nat.zero_add _).trans_le hfits), hs.status, hs.cfg, hs.table⟩

/-- Settles O52: by induction over how the state is reached. -/
theorem reachableStatesMeetInvariant : Obligations.ReachableStatesMeetInvariant := by
  intro c s hc hreach
  induction hreach with
  | reset => exact resetWith_inv hc
  | load bytes t hload =>
    obtain ⟨hfits, rfl⟩ := load_eq_next.mp hload
    exact inv_setMem_writeBytes (resetWith_inv hc) hfits
  | step s t _ hstep ih => exact stepKeepsInvariant c s t ih hstep

/-- Settles O53: each operation by its law. -/
theorem nothingChangesConfiguration : Obligations.NothingChangesConfiguration := by
  intro h req
  cases req with
  | reset => rw [serve_reset]; rfl
  | load bytes =>
    obtain hsame | ⟨-, hloaded⟩ := serve_load_cases h bytes
    · rw [hsame]
    · rw [hloaded]; rfl
  | step =>
    obtain ⟨t, ht⟩ := step_total h.machine
    rw [serve_step ht]
    exact step_keeps_cfg ht
  | run n =>
    obtain ⟨t, ht⟩ := run_total n h.machine
    rw [serve_run ht]
    exact run_keeps (P := fun s => s.cfg = h.machine.cfg) (fun _ _ hu hs => (step_keeps_cfg hu).trans hs) ht rfl

/-- Settles O56: each operation by its law; the machine is counted unused only after a reset, or where nothing changed. -/
theorem hostRequestsKeepInvariant : Obligations.HostRequestsKeepInvariant := by
  refine ⟨fun c h req hinv => ?_, fun c hc => ⟨resetWith_inv hc, fun _ => rfl⟩⟩
  cases req with
  | reset =>
    rw [serve_reset, hinv.machine.cfg]
    exact ⟨resetWith_inv hinv.machine.table, fun _ => rfl⟩
  | load bytes =>
    obtain hsame | ⟨hfits, hloaded⟩ := serve_load_cases h bytes
    · rwa [hsame]
    · rw [hloaded]
      exact ⟨inv_setMem_writeBytes hinv.machine hfits, Bool.noConfusion⟩
  | step =>
    obtain ⟨t, ht⟩ := step_total h.machine
    rw [serve_step ht]
    exact ⟨stepKeepsInvariant c _ t hinv.machine ht, Bool.noConfusion⟩
  | run n =>
    obtain ⟨t, ht⟩ := run_total n h.machine
    rw [serve_run ht]
    refine ⟨run_keeps (fun s t hu hs => stepKeepsInvariant c s t hs hu) ht hinv.machine, fun hunused => ?_⟩
    obtain ⟨hu, hn⟩ := (Bool.and_eq_true _ _).mp hunused
    obtain rfl : n = 0 := eq_of_beq hn
    cases ht
    exact hinv.unused hu

/-! ### The ports after a step (70_reset_and_hazards.md R124) -/

/-- The status code tells the three shapes of STATUS apart. -/
theorem code_iff (st : Status) :
    (st.code = 0 ↔ st = .running) ∧ (st.code = 1 ↔ st = .halted) ∧ (st.code = 2 ↔ ∃ k, st = .error k) := by
  cases st <;> simp [Status.code]

/-- The error kind port is 0 without an error, and tells the kinds a step can raise apart. -/
theorem errorCode_iff (st : Status) :
    (st.errorCode = 0 ↔ ¬ ∃ k, st = .error k) ∧ (st.errorCode = 1 ↔ st = .error .unknownInstruction) ∧
    (st.errorCode = 2 ↔ st = .error .unsupportedOperation) ∧ (st.errorCode = 3 ↔ st = .error .outOfBounds) := by
  cases st with
  | running | halted => simp [Status.errorCode]
  | error k => cases k <;> simp [Status.errorCode, ErrorKind.code]

/-- The flag bits tell the four flag values apart. -/
theorem bits_iff (f : Flag) :
    (f.bits = 0b000 ↔ f = .unset) ∧ (f.bits = 0b001 ↔ f = .equal) ∧ (f.bits = 0b010 ↔ f = .greaterThan) ∧
    (f.bits = 0b100 ↔ f = .lessThan) := by
  cases f <;> decide

/-- Settles O54: each port by its own table, and the emitted values are what OUT grew by. -/
theorem portsShowTheStep : Obligations.PortsShowTheStep := by
  intro h g r hserve
  obtain ⟨t, ht⟩ := step_total h.machine
  rw [serve_step ht] at hserve
  cases hserve
  obtain ⟨l, hl, hout, -⟩ := step_appends ht
  have hemitted : (portsAfter h.machine t (.status t.status)).emitted = l := by
    rw [portsAfter, hout, List.drop_left]
  obtain ⟨hrunning, hhalted, herror⟩ := code_iff t.status
  obtain ⟨hnone, hunknown, hunsupported, hbounds⟩ := errorCode_iff t.status
  obtain ⟨hunset, hequal, hgreater, hless⟩ := bits_iff t.fl
  refine ⟨hrunning, hhalted, herror, hnone, hunknown, hunsupported, hbounds, hunset, hequal, hgreater, hless, ?_, ?_, rfl,
    fun _ => rfl⟩
  · rw [hemitted, hout]
  · rwa [hemitted]

end Sys2Proof.Machine
end
